-- ==== Sys2Proof/Word.lean ====
section
/-! DEFINITION. The two word types of the spec: a byte and a 16-bit value (rule R12). -/

namespace Sys2Proof

/-- A byte: an unsigned 8-bit value (rule R12). -/
abbrev Byte := BitVec 8

/-- An unsigned 16-bit value: the payload-length field, a checksum or a distance (rule R12). -/
abbrev Half := BitVec 16

end Sys2Proof
end

