-- ==== Sys2Proof/Machine/Constants.lean ====
section
/-! DEFINITION. The fixed constants of the block (rule R9) and of its environment (rule R10). No operation writes one. -/

namespace Sys2Proof

/-- `CAP`: Frame Buffer capacity in bytes (rule R9). -/
def CAP : Nat := 64

/-- `HDR`: the frame header, in stream order (rule R9). -/
def HDR : List Byte := [0xA5, 0x03, 0x20, 0x01]

/-- `MIN_HDRLEN`: bytes buffered before the header and the length field are examined (rule R9). -/
def MIN_HDRLEN : Nat := 7

/-- `MAX_PAYLOAD`: largest accepted payload-length field (rule R9). -/
def MAX_PAYLOAD : Nat := 32

/-- `MIN_FRAME`: smallest frame (rule R9). -/
def MIN_FRAME : Nat := 9

/-- `DIST_MIN_PAYLOAD`: smallest payload length that carries a distance (rule R9). -/
def DIST_MIN_PAYLOAD : Nat := 14

/-- `DIST_LO`: frame index of the distance's low byte (rule R9, conflict C1). -/
def DIST_LO : Nat := 13

/-- `DIST_HI`: frame index of the distance's high byte (rule R9, conflict C1). -/
def DIST_HI : Nat := 14

/-- `NO_TARGET`: the "no target" sentinel (rule R9). -/
def NO_TARGET : Half := 0xFFFF

/-- `CRC_SEED` (rule R9). -/
def CRC_SEED : Half := 0xFFFF

/-- `CRC_POLY`: the reflected polynomial (rule R9). -/
def CRC_POLY : Half := 0xA001

/-- The longest frame the synchronizer accepts: `T = 9 + 32` (rules R48 and R87). -/
def MAX_FRAME : Nat := 41

/-- `RX_CAP`: most input bytes consumed per byte-drain tick (rule R10). -/
def RX_CAP : Nat := 32

/-- `TIMEOUT_MS`: link inactivity timeout in milliseconds (rule R10). -/
def TIMEOUT_MS : Nat := 10000

/-- `HYST_M` in millimetres: 0.01 m is 10 mm (rule R10). -/
def HYST_MM : Nat := 10

/-- `START_CMD`: the 9 bytes of the start command, sent verbatim (rules R10 and R49). -/
def START_CMD : List Byte := [0xA5, 0x03, 0x20, 0x01, 0x00, 0x00, 0x00, 0x02, 0x6E]

end Sys2Proof
end

