-- ==== Sys2Proof/Machine/Checksum.lean ====
section
/-! DEFINITION. The CRC16 unit (rules R58 to R60): a pure function of a byte list. -/

namespace Sys2Proof

/-- One pass of the inner loop of rule R58: shift right, and exclusive-or the polynomial if bit 0 was set.
PRESUMED: the loop is the spec's own supply from general knowledge (G1), confirmed by the start command (log 16). -/
def crcShift (c : Half) : Half :=
  if c.getLsbD 0 then (c >>> 1) ^^^ CRC_POLY else c >>> 1

/-- One byte of rule R58: it enters the low 8 bits, then the inner loop runs eight times. -/
def crcByte (c : Half) (b : Byte) : Half :=
  Nat.repeat crcShift 8 (c ^^^ b.zeroExtend 16)

/-- `CRC16(data)`: the bytes in stream order from the seed; no final exclusive-or, no reflection (rule R58). -/
def crc16 (data : List Byte) : Half :=
  data.foldl crcByte CRC_SEED

end Sys2Proof
end

