-- ==== Sys2Proof/Machine/Operands.lean ====
section
/-! DEFINITION. The operand forms: how wire fields are assembled from bytes (rules R12, R29, R46, R47, R50) and how a frame is
laid out from its fields (rule R46). Every byte order is decided here, once. -/

namespace Sys2Proof

/-- `u16be(h, l)`: high byte first (rule R12). -/
def u16be (h l : Byte) : Half := h ++ l

/-- `u16le(l, h)`: low byte first (rule R12). -/
def u16le (l h : Byte) : Half := h ++ l

/-- `hi(v)` (rule R57). -/
def hiByte (v : Half) : Byte := v.extractLsb' 8 8

/-- `lo(v)` (rule R57). -/
def loByte (v : Half) : Byte := v.extractLsb' 0 8

/-- The two bytes of a big-endian field, in stream order (rule R29). -/
def be16 (v : Half) : List Byte := [hiByte v, loByte v]

/-- The payload-length field `u16be(f[5], f[6])` (rules R46 and R50); `none` where a byte has no value. -/
def lengthField (f : List Byte) : Option Half := do
  let h ← f[5]?
  let l ← f[6]?
  return u16be h l

/-- `T = 7 + L + 2`, in exact arithmetic (rules R48 and R51). -/
def totalLength (l : Half) : Nat := 7 + l.toNat + 2

/-- The distance `u16le(f[13], f[14])` (rules R47 and R91); `none` where a byte has no value. -/
def distanceField (f : List Byte) : Option Half := do
  let lo ← f[DIST_LO]?
  let hi ← f[DIST_HI]?
  return u16le lo hi

/-- The received checksum `u16be(f[n-2], f[n-1])` of a frame of `n` bytes (rules R29 and R61); `none` where a byte has no
value. -/
def receivedCrc (f : List Byte) : Option Half := do
  let h ← f[f.length - 2]?
  let l ← f[f.length - 1]?
  return u16be h l

/-- The bytes the checksum covers: `f[0 ..< n-2]` (rule R60, conflict C3). -/
def crcSpan (f : List Byte) : List Byte := f.take (f.length - 2)

/-- `CRC_OK(f)`: the validator's comparison, all 16 bits (rule R61). -/
def crcOk (f : List Byte) : Bool := receivedCrc f == some (crc16 (crcSpan f))

/-- Header, type byte, length field and payload of a frame: its first `7 + L` bytes (rule R46). -/
def frameSpan (t : Byte) (payload : List Byte) : List Byte :=
  HDR ++ t :: be16 (BitVec.ofNat 16 payload.length) ++ payload

/-- The complete frame with its checksum, in stream order (rules R46 and R57, `FRAME`). -/
def frameBytes (t : Byte) (payload : List Byte) : List Byte :=
  frameSpan t payload ++ be16 (crc16 (frameSpan t payload))

end Sys2Proof
end

