-- ==== Sys2Proof/Syntax.lean ====
section
/-! DEFINITION. The rows of spec/opcode_table.json, one constructor each: the six operation words (rule R45), the three frame
classes, the outbound start command and the five reject classes (rules R46, R49, R54). -/

namespace Sys2Proof

/-- One constructor per row of the opcode table. The operands of a frame or reject row are the bytes the row's class is read
from; the checksum of a valid frame is no operand, because rule R46 fixes it. -/
inductive Instr where
  /-- `BYTE(b)` (rule R68). -/
  | byte (b : Byte)
  /-- `RESET` (rule R125). -/
  | reset
  /-- `INIT` (rule R101). -/
  | init
  /-- `RX_TICK` (rule R99). -/
  | rxTick
  /-- `LM_TICK` (rule R103). -/
  | lmTick
  /-- `DIAG` (rule R109). -/
  | diag
  /-- `FRAME_DISTANCE` (rule R93): type byte and payload of a valid frame that carries a distance. -/
  | frameDistance (t : Byte) (payload : List Byte)
  /-- `FRAME_NO_TARGET` (rule R92). -/
  | frameNoTarget (t : Byte) (payload : List Byte)
  /-- `FRAME_INSUFFICIENT` (rule R90). -/
  | frameInsufficient (t : Byte) (payload : List Byte)
  /-- `START_CMD` (rule R49): the outbound command. -/
  | startCmd
  /-- `REJ_HEADER_MISMATCH` (rule R72): buffer bytes 0..3. -/
  | rejHeaderMismatch (h0 h1 h2 h3 : Byte)
  /-- `REJ_OVERSIZED_PAYLOAD_FIELD` (rule R73): type byte and length field. -/
  | rejOversizedPayloadField (t : Byte) (l : Half)
  /-- `REJ_FRAME_TOO_LARGE` (rule R74): type byte and length field. -/
  | rejFrameTooLarge (t : Byte) (l : Half)
  /-- `REJ_CHECKSUM_MISMATCH` (rule R89): type byte, payload and received checksum. -/
  | rejChecksumMismatch (t : Byte) (payload : List Byte) (x : Half)
  /-- `REJ_TOO_SHORT` (rule R88): the length of the candidate frame. -/
  | rejTooShort (n : Nat)
deriving DecidableEq, Repr

/-- What the decoder reads: the four formats of the opcode table's "format" column. -/
inductive Encoded where
  /-- A 12-bit operation word (rule R45). -/
  | op (w : BitVec 12)
  /-- The bytes at the buffer front, in stream order (rules R46 and R54). -/
  | front (bytes : List Byte)
  /-- An outbound command, in stream order (rule R49). -/
  | command (bytes : List Byte)
  /-- A candidate frame's length alone (row REJ_TOO_SHORT). -/
  | candidate (n : Nat)
deriving DecidableEq, Repr

/-- Why a decoder gives no instruction, by name. -/
inductive Reject where
  /-- Opcode `0x2`..`0x7` or `0xC`..`0xF` (rule R55). -/
  | reservedOpcode (opcode : BitVec 4)
  /-- Nonzero data on an opcode other than BYTE (rule R55). -/
  | nonzeroData (opcode : BitVec 4)
  /-- Fewer than 7 bytes: the loop stops, Hunting (rule R71). -/
  | hunting
  /-- Header and length, but not all `T` bytes: the loop stops, LengthKnown (rule R75). -/
  | lengthKnown
  /-- A byte without a value would be read (rule R19). -/
  | unwrittenRead
  /-- An outbound command other than the start command (rule R49). -/
  | notStartCommand
  /-- A candidate length that is not too short says nothing more by itself (rule R88). -/
  | notTooShort
  /-- A DECODE operand the synchronizer would not form: `n ≠ 9 + L` or `n > 41` (rule R87). -/
  | notACandidate
deriving DecidableEq, Repr

end Sys2Proof
end

