-- ==== Sys2Proof/WellFormed.lean ====
section
/-! DEFINITION. When an instruction meets the "constraint" of its row of the opcode table. -/

namespace Sys2Proof

/-- The constraint of each row of spec/opcode_table.json. -/
def Instr.wellFormed : Instr → Bool
  | .byte _ => true
  | .reset => true
  | .init => true
  | .rxTick => true
  | .lmTick => true
  | .diag => true
  | .frameDistance t p =>
    decide (DIST_MIN_PAYLOAD ≤ p.length) && decide (p.length ≤ MAX_PAYLOAD)
      && (distanceField (frameSpan t p) != some NO_TARGET)
  | .frameNoTarget t p =>
    decide (DIST_MIN_PAYLOAD ≤ p.length) && decide (p.length ≤ MAX_PAYLOAD)
      && (distanceField (frameSpan t p) == some NO_TARGET)
  | .frameInsufficient _ p => decide (p.length < DIST_MIN_PAYLOAD)
  | .startCmd => true
  | .rejHeaderMismatch h0 h1 h2 h3 => [h0, h1, h2, h3] != HDR
  | .rejOversizedPayloadField _ l => decide (MAX_PAYLOAD < l.toNat)
  | .rejFrameTooLarge _ l => decide (CAP < totalLength l)
  | .rejChecksumMismatch t p x => decide (p.length ≤ MAX_PAYLOAD) && (crc16 (frameSpan t p) != x)
  | .rejTooShort n => decide (n < MIN_FRAME)

end Sys2Proof
end

