-- ==== Sys2Proof/Decode.lean ====
section
/-! DEFINITION. The Frame Decoder (rules R86 to R95), the decoders of the table's four formats, and the encoder. Every decoder
is total and rejects by name. -/

namespace Sys2Proof

/-- A successful decode (rule R86). -/
inductive Measurement where
  | distance (d : Half)
  | noTarget
  | insufficient
deriving DecidableEq, Repr

/-- A failed decode (rule R86). -/
inductive DecodeError where
  | tooShort (n : Nat)
  | checksumMismatch (c x : Half)
deriving DecidableEq, Repr

/-- `DECODE(f)` (rule R86), step by step; `none` where a step reads a byte without a value (rule R19). -/
def decodeFrame (f : List Byte) : Option (Except DecodeError Measurement) :=
  if f.length < MIN_FRAME then some (.error (.tooShort f.length))            -- step 1
  else do
    let x ← receivedCrc f
    let c := crc16 (crcSpan f)
    if c ≠ x then return .error (.checksumMismatch c x)                      -- step 2
    let l ← lengthField f
    if l.toNat < DIST_MIN_PAYLOAD then return .ok .insufficient              -- step 3
    let d ← distanceField f                                                  -- step 4
    if d = NO_TARGET then return .ok .noTarget                               -- step 5
    return .ok (.distance d)                                                 -- step 6

/-- DECODE exposed on its own: it refuses every operand the synchronizer would not form (rule R87). -/
def decodeAlone (f : List Byte) : Except Reject (Except DecodeError Measurement) :=
  match lengthField f with
  | none => .error .notACandidate
  | some l =>
    if f.length = totalLength l ∧ f.length ≤ MAX_FRAME then
      match decodeFrame f with
      | some r => .ok r
      | none => .error .unwrittenRead
    else .error .notACandidate

/-- The row of a candidate frame, given its type byte, payload and the result of DECODE (rule R95). -/
def rowOfResult (t : Byte) (payload : List Byte) : Except DecodeError Measurement → Instr
  | .error (.tooShort n) => .rejTooShort n
  | .error (.checksumMismatch _ x) => .rejChecksumMismatch t payload x
  | .ok .insufficient => .frameInsufficient t payload
  | .ok .noTarget => .frameNoTarget t payload
  | .ok (.distance _) => .frameDistance t payload

/-- Steps 2 to 7 of one pass at the front of a buffer (rules R68 and R115), for a given `MAX_PAYLOAD` and `CAP`: rule R74
keeps its meaning for other constants. Rejecting with `hunting` or `lengthKnown` is the loop's stop. -/
def classifyFront (maxPayload cap : Nat) (buf : List Byte) : Except Reject Instr :=
  if buf.length < MIN_HDRLEN then .error .hunting                             -- step 2
  else match buf with
  | h0 :: h1 :: h2 :: h3 :: t :: lh :: ll :: rest =>
    if [h0, h1, h2, h3] ≠ HDR then .ok (.rejHeaderMismatch h0 h1 h2 h3)       -- step 3
    else if maxPayload < (u16be lh ll).toNat then
      .ok (.rejOversizedPayloadField t (u16be lh ll))                         -- step 4
    else if cap < totalLength (u16be lh ll) then
      .ok (.rejFrameTooLarge t (u16be lh ll))                                 -- step 5
    else if buf.length < totalLength (u16be lh ll) then .error .lengthKnown   -- step 6
    else match decodeFrame (buf.take (totalLength (u16be lh ll))) with        -- step 7
      | some r => .ok (rowOfResult t (rest.take (u16be lh ll).toNat) r)
      | none => .error .unwrittenRead
  | _ => .error .unwrittenRead

/-- The row at the front of the Frame Buffer, with the constants of rule R9. -/
def decodeFront (buf : List Byte) : Except Reject Instr := classifyFront MAX_PAYLOAD CAP buf

/-- An operation word (rules R45 and R55). -/
def decodeOp (w : BitVec 12) : Except Reject Instr :=
  let opcode : BitVec 4 := w.extractLsb' 8 4
  let data : Byte := w.extractLsb' 0 8
  let plain (i : Instr) : Except Reject Instr :=
    if data = 0 then .ok i else .error (.nonzeroData opcode)
  match opcode.toNat with
  | 0x0 => .ok (.byte data)
  | 0x1 => plain .reset
  | 0x8 => plain .init
  | 0x9 => plain .rxTick
  | 0xA => plain .lmTick
  | 0xB => plain .diag
  | _ => .error (.reservedOpcode opcode)

/-- An outbound command: only the start command is defined (rule R49). -/
def decodeCommand (bytes : List Byte) : Except Reject Instr :=
  if bytes = START_CMD then .ok .startCmd else .error .notStartCommand

/-- A candidate frame known by its length alone: step 1 of DECODE (rule R88). -/
def decodeCandidate (n : Nat) : Except Reject Instr :=
  if n < MIN_FRAME then .ok (.rejTooShort n) else .error .notTooShort

/-- The decoder: total on the table's four formats. -/
def decode : Encoded → Except Reject Instr
  | .op w => decodeOp w
  | .front bytes => decodeFront bytes
  | .command bytes => decodeCommand bytes
  | .candidate n => decodeCandidate n

/-- The encoder, from the encoding tables of rules R45, R46, R49 and R54. A reject row is read once 7 bytes stand at the front
(rule R71), so REJ_HEADER_MISMATCH is followed by three bytes that the row does not read. -/
def encode : Instr → Encoded
  | .byte b => .op (0x0#4 ++ b)
  | .reset => .op 0x100
  | .init => .op 0x800
  | .rxTick => .op 0x900
  | .lmTick => .op 0xA00
  | .diag => .op 0xB00
  | .frameDistance t p => .front (frameBytes t p)
  | .frameNoTarget t p => .front (frameBytes t p)
  | .frameInsufficient t p => .front (frameBytes t p)
  | .startCmd => .command START_CMD
  | .rejHeaderMismatch h0 h1 h2 h3 => .front [h0, h1, h2, h3, 0, 0, 0]
  | .rejOversizedPayloadField t l => .front (HDR ++ t :: be16 l)
  | .rejFrameTooLarge t l => .front (HDR ++ t :: be16 l)
  | .rejChecksumMismatch t p x => .front (frameSpan t p ++ be16 x)
  | .rejTooShort n => .candidate n

/-- The first `n` bytes of a table word, the first byte in its lowest bits (the numbering of spec/opcode_table.json). -/
def tableBytes : Nat → Nat → List Byte
  | 0, _ => []
  | n + 1, w => BitVec.ofNat 8 w :: tableBytes n (w / 256)

/-- A table word as the decoder reads it. The number of bits tells the row's format: 8 bits a candidate length, up to 16 an
operation word in its low 12 bits, 72 an outbound command, any other number of bytes a buffer front. A front is followed by
zero bytes up to the longest frame. `none` where an operation word has bits above bit 11 (log 21). -/
def tableEncoded (nbits w : Nat) : Option Encoded :=
  if nbits ≤ 8 then some (.candidate w)
  else if nbits ≤ 16 then if w < 4096 then some (.op (BitVec.ofNat 12 w)) else none
  else if nbits = 72 then some (.command (tableBytes 9 w))
  else some (.front (tableBytes (nbits / 8) w ++ List.replicate (MAX_FRAME - nbits / 8) 0))

/-- The instruction the decoder reads from a table word of `nbits` bits. -/
def decodeTableWord (nbits w : Nat) : Option Instr :=
  match tableEncoded nbits w with
  | none => none
  | some e =>
    match decode e with
    | .ok i => some i
    | .error _ => none

end Sys2Proof
end

