-- ==== Sys2Proof/Config.lean ====
section
/-! DEFINITION. The parameters the spec leaves open (rule R11) and the free values. None has a body: nothing can be proved
about which value one has, so a statement holds for every value. The spec's fixed constants are in Machine/Constants.lean. -/

namespace Sys2Proof

/-- A float format: the two that rule R107 evaluates, or any other, by a number of its own (rule R11 restricts it to none). -/
inductive FloatFmt where
  | binary32
  | binary64
  | other (k : Nat)
deriving DecidableEq, Repr, Inhabited

/-- The value of a non-negative float, `num / den`; `den = 0` is an infinity. -/
structure FloatVal where
  num : Nat
  den : Nat
deriving DecidableEq, Repr, Inhabited

/-- `FLOAT_FMT` (rule R11, D10): OPEN. It decides how a metre value reads as a float and whose test the hysteresis is (log 9). -/
opaque Config.floatFmt : FloatFmt

/-- FREE VALUE. The float that `d / 1000.0` is in other format `k`, for a distance `d` other than 0 (rules R11 and R94; log 9). -/
opaque Config.otherFloat : Nat → Nat → FloatVal

/-- `RXQ_DEPTH` (rule R11, D20): OPEN. `none` is a queue without a bound, `some n` one of at most `n` bytes (log 23). -/
opaque Config.rxqDepth : Option Nat

/-- `CLOCK_BITS` (rule R11, D13): OPEN. `none` is the unbounded clock, `some k` a clock of `k` bits (log 11). -/
opaque Config.clockBits : Option Nat

/-- FREE VALUE. Whether the transport's draw number `n`, made by a `read_byte()` while `available() > 0`, is `None`
(rules R97 and R99, I15; log 7). -/
opaque Config.readNone : Nat → Bool

/-- FREE VALUE. `HYST_EQ10` (rules R11 and R107, D11): whether draw number `n` lets a change of exactly 10 mm, from the first
distance to the second, pass the hysteresis test (log 8). -/
opaque Config.hystEq10 : Nat → Nat → Nat → Bool

/-- FREE VALUE. Whether draw number `n` lets the change from the first distance to the second pass the hysteresis test in a
format that rule R107 does not evaluate (logs 8 and 9). -/
opaque Config.hystOther : Nat → Nat → Nat → Bool

end Sys2Proof
end

