-- ==== Sys2Proof/Machine/State.lean ====
section
/-! DEFINITION. The state of the block (rule R16), of its environment (rule R23), the observations a run leaves (rules R27,
R108, R109) and the model's own fields; the reasons a step can stop; the state after reset (rule R28). -/

namespace Sys2Proof.Machine

/-- The Frame Buffer as (index, byte) cells, in rising order of index. An index that is not listed holds no value (rule R19). -/
abbrev Memory := List Host.Cell

/-- A metre value `mm / 1000`, held by its millimetre count (rule R94; log 9). -/
structure Metre where
  mm : Nat
deriving DecidableEq, Repr

/-- PublishedValue, tagged (rule R25). -/
inductive Published where
  | unset
  | noTarget
  | distance (m : Metre)
deriving DecidableEq, Repr

/-- What the consumer receives (rule R108). `nan` is any NaN: its bits are not specified (I1; log 10). -/
inductive PublishValue where
  | metres (m : Metre)
  | nan
deriving DecidableEq, Repr

/-- The events (rule R113), with their information fields. -/
inductive Event where
  | frameDistance (d : Half)
  | frameNoTarget
  | frameInsufficient
  | bufferOverflow
  | headerMismatch (h : Byte)
  | oversizedPayloadField (l : Half)
  | frameTooLarge (t : Nat)
  | checksumMismatch (c x : Half)
  | tooShort (n : Nat)
  | linkTimeout
deriving DecidableEq, Repr

/-- The diagnostics record (rule R109, D25). `hysteresisM` is 0.01 m, the metre value 10/1000. -/
structure DiagRecord where
  capacity : Nat
  linkStarted : Bool
  timeoutMs : Nat
  hysteresisM : Metre
deriving DecidableEq, Repr

/-- What the run has been so far (rule R101, D16; log 3). -/
inductive RunMode where
  /-- No operation has been performed. -/
  | fresh
  /-- A run of the block alone: only `BYTE` and `RESET`. -/
  | blockAlone
  /-- A run that `INIT` began: the component is created. -/
  | system
deriving DecidableEq, Repr

/-- What the outside world presents next (rules R44, R56, R110; log 2). -/
inductive Input where
  /-- An operation word (rule R45). -/
  | op (w : BitVec 12)
  /-- The transport's clock reaches `t` (rules R56 and R98). -/
  | clock (t : Nat)
  /-- The transport received bytes (rules R56 `QUEUE` and R110). -/
  | receive (bytes : List Byte)
  /-- An outbound command to send (row START_CMD; log 6). -/
  | command (bytes : List Byte)
  /-- The length of a candidate frame (row REJ_TOO_SHORT; log 6). -/
  | candidate (n : Nat)
deriving DecidableEq, Repr

/-- The whole machine: block, environment, observations and the model's own fields, as INVENTORY.md lists them. -/
structure State where
  /-- `buf` and `len`: the cells of indices `0 ..< len` (rules R16 and R18; log 1). -/
  buf : Memory
  /-- `started` (rule R23). -/
  started : Bool
  /-- `last_activity` (rule R23). -/
  lastActivity : Nat
  /-- `last_published` (rule R23). -/
  lastPublished : Published
  /-- `rxq` (rule R23). -/
  rxq : List Byte
  /-- `now` (rule R23). -/
  now : Nat
  /-- Bytes queued by `write_bytes` and not yet transmitted (rules R26 and R97). -/
  txq : List Byte
  /-- The event trace: an observation (rule R27). -/
  trace : List Event
  /-- What the consumer received: an observation (rule R108). -/
  published : List PublishValue
  /-- The bytes transmitted on the line: an observation (rule R97). -/
  line : List Byte
  /-- The records `DIAG` returned: an observation (rule R109). -/
  diagLog : List DiagRecord
  /-- The model's own: the run so far (log 3). -/
  mode : RunMode
  /-- The model's own: what the outside world presents next (log 2). -/
  port : List Input
  /-- The model's own: how many free values were drawn (logs 7 and 8). -/
  draws : Nat
deriving DecidableEq, Repr

/-- Model faults: preconditions a caller broke (rule R14). -/
inductive Fault where
  /-- Raised where a byte without a value would be read (rules R19 and R67). Safe: the spec itself calls it a model fault. -/
  | unwrittenRead
  /-- Raised by `DROP_FRONT(n)` with `n > len` (rules R64 and R130). Safe: the spec itself calls it a model fault. -/
  | dropPastEnd
deriving DecidableEq, Repr

/-- Why a step gives no meaning. -/
inductive Refusal where
  /-- Reserved for an instruction whose meaning is not written; no arm uses it. Safe. -/
  | notModelled (mnemonic : String)
  /-- Raised by an environment operation in a run that `INIT` did not begin (rule R101, D16). Safe: the spec refuses it. -/
  | beforeInit (mnemonic : String)
  /-- Raised by `INIT` when it is not the first operation of the run (rule R101, D16). Safe: the spec refuses it. -/
  | initNotFirst
  /-- Raised by a frame or reject row whose operands do not meet the row's constraint (rule R87; log 26). Safe: no meaning. -/
  | outsideClass (mnemonic : String)
  /-- Raised by the step when the input does not decode (rules R55, R49 and R88). Safe: the spec refuses it. -/
  | rejected (why : Reject)
  /-- Raised by the step when the clock would decrease (rule R56, I22). Safe: the spec refuses the program. -/
  | clockDecreases
deriving DecidableEq, Repr

/-- The machine after reset (rule R28), before any operation. Fields for which the spec gives no value: log 12. -/
def State.reset : State where
  buf := []
  started := false
  lastActivity := 0
  lastPublished := .unset
  rxq := []
  now := 0
  txq := []
  trace := []
  published := []
  line := []
  diagLog := []
  mode := .fresh
  port := []
  draws := 0

end Sys2Proof.Machine
end

