-- ==== Sys2Proof/Machine/Ops.lean ====
section
/-! DEFINITION. The named operations: the Frame Buffer's cells, its micro-operations (rules R63 to R67) on the logical window
(rule R18), the synchronizer's phase (rule R21), the event list (rules R27 and R112) and the transport (rules R97 and R102).
There is no trap to take and none to return from (rules R111, R117, R118). -/

namespace Sys2Proof.Machine

/-- What one operation answers. -/
abbrev Result := Host.Outcome State Fault Refusal

/-! ### The cells of the Frame Buffer -/

/-- The cells that hold `bytes` at the indices from `i` on. -/
def Memory.cellsFrom : Nat → List Byte → Memory
  | _, [] => []
  | i, b :: bs => (i, b) :: Memory.cellsFrom (i + 1) bs

/-- The buffer that holds `bytes` at the indices `0 ..< bytes.length` (rule R18). -/
def Memory.ofBytes (bytes : List Byte) : Memory := Memory.cellsFrom 0 bytes

/-- The logical window: the valid bytes in index order (rule R18). -/
def Memory.bytes (m : Memory) : List Byte := m.map Prod.snd

/-- The byte at an index; `none` where no value is held (rule R19). -/
def Memory.read (m : Memory) (i : Nat) : Option Byte := (m.find? fun c => c.1 == i).map Prod.snd

/-- The canonical form: the indices are `0, 1, ..., len - 1` in order, and `len ≤ CAP` (rules R16 and R17). -/
def Memory.wf (m : Memory) : Bool := m == Memory.ofBytes (Memory.bytes m) && decide (m.length ≤ CAP)

/-- `len` (rule R16). -/
def State.len (s : State) : Nat := s.buf.length

/-- The logical window of the Frame Buffer (rule R18). -/
def State.window (s : State) : List Byte := Memory.bytes s.buf

/-- The state whose Frame Buffer holds exactly `bytes` (rule R18). -/
def State.setWindow (s : State) (bytes : List Byte) : State := { s with buf := Memory.ofBytes bytes }

/-! ### Micro-operations of the Frame Buffer, on its window -/

/-- `APPEND(b)` (rule R63): the new window, or `none` for `Overflow`, which discards every byte and `b`. -/
def append (b : Byte) (buf : List Byte) : Option (List Byte) :=
  if buf.length < CAP then some (buf ++ [b]) else none

/-- `DROP_FRONT(n)` (rule R64). -/
def dropFront (n : Nat) (buf : List Byte) : Except Fault (List Byte) :=
  if n > buf.length then .error .dropPastEnd else .ok (buf.drop n)

/-- `CLEAR` (rule R65). -/
def clear (_ : List Byte) : List Byte := []

/-- `HAS_AT_LEAST(n)` (rule R66). -/
def hasAtLeast (n : Nat) (buf : List Byte) : Bool := decide (n ≤ buf.length)

/-- `READ(i)` (rule R67). -/
def readByte (i : Nat) (buf : List Byte) : Except Fault Byte :=
  match buf[i]? with
  | some b => .ok b
  | none => .error .unwrittenRead

/-- `READ_U16BE(i)` (rule R67). -/
def readU16be (i : Nat) (buf : List Byte) : Except Fault Half := do
  let h ← readByte i buf
  let l ← readByte (i + 1) buf
  return u16be h l

/-- `READ_U16LE(i)` (rule R67). -/
def readU16le (i : Nat) (buf : List Byte) : Except Fault Half := do
  let l ← readByte i buf
  let h ← readByte (i + 1) buf
  return u16le l h

/-- The synchronizer's phases (rule R21). -/
inductive Phase where
  | hunting
  | lengthKnown
  | frameReady
deriving DecidableEq, Repr

/-- `phase(buf, len)`: derived, never stored (rule R21, D22). -/
def phase (buf : List Byte) : Phase :=
  if buf.length < MIN_HDRLEN then .hunting
  else if buf.take HDR.length ≠ HDR then .hunting
  else match lengthField buf with
  | none => .hunting
  | some l =>
    if MAX_PAYLOAD < l.toNat then .hunting
    else if buf.length < totalLength l then .lengthKnown
    else .frameReady

/-! ### Events and the run -/

/-- The numeric code of an event (rule R113, D7). -/
def eventCode : Event → BitVec 4
  | .frameDistance _ => 0x1
  | .frameNoTarget => 0x2
  | .frameInsufficient => 0x3
  | .bufferOverflow => 0x8
  | .headerMismatch _ => 0x9
  | .oversizedPayloadField _ => 0xA
  | .frameTooLarge _ => 0xB
  | .checksumMismatch _ _ => 0xC
  | .tooShort _ => 0xD
  | .linkTimeout => 0xE

/-- Whether an event is one of the three successes, `FRAME_OK(m)` (rule R113). -/
def isSuccess : Event → Bool
  | .frameDistance _ => true
  | .frameNoTarget => true
  | .frameInsufficient => true
  | .bufferOverflow => false
  | .headerMismatch _ => false
  | .oversizedPayloadField _ => false
  | .frameTooLarge _ => false
  | .checksumMismatch _ _ => false
  | .tooShort _ => false
  | .linkTimeout => false

/-- Events are added to the trace in the order they are emitted (rules R27 and R112). -/
def State.emit (s : State) (evs : List Event) : State := { s with trace := s.trace ++ evs }

/-- An operation of the block makes a run that has not begun a run of the block alone (rule R101; log 3). -/
def State.enterBlock (s : State) : State :=
  { s with mode := match s.mode with
      | .fresh => .blockAlone
      | .blockAlone => .blockAlone
      | .system => .system }

/-- An operation of the environment needs a created component (rule R101, D16). -/
def inSystem (mnemonic : String) (s : State) (meaning : Result) : Result :=
  match s.mode with
  | .system => meaning
  | .fresh => .refused (.beforeInit mnemonic)
  | .blockAlone => .refused (.beforeInit mnemonic)

/-! ### The transport -/

/-- The receive queue with bytes that arrive, in order. A byte that finds the queue full is lost; those already queued are neither
lost nor reordered (rules R110 and R133, D20; log 23). -/
def enqueue (depth : Option Nat) (rxq bytes : List Byte) : List Byte :=
  match depth with
  | none => rxq ++ bytes
  | some n => rxq ++ bytes.take (n - rxq.length)

/-- `write_bytes(bytes)`: queue for transmission, in order (rule R97). -/
def State.writeBytes (s : State) (bytes : List Byte) : State := { s with txq := s.txq ++ bytes }

/-- `flush()`: everything queued is transmitted; in the untimed model within the operation (rules R97 and R102; log 20). -/
def State.flush (s : State) : State := { s with line := s.line ++ s.txq, txq := [] }

/-- `SEND_START` (rule R102). -/
def State.sendStart (s : State) : State :=
  { (s.writeBytes START_CMD).flush with started := true, lastActivity := s.now }

end Sys2Proof.Machine
end

