-- ==== Sys2Proof/Machine/Flags.lean ====
section
/-! DEFINITION. FSYNC has no status flags or condition codes (rule R20). What decides in their place is here: the Link
Monitor's timeout test (rules R98 and R103) and the Publisher's hysteresis test (rule R107). -/

namespace Sys2Proof.Machine

/-- Elapsed time on a clock of `bits` bits, or on the unbounded clock (rule R98, D13). -/
def elapsed (bits : Option Nat) (now lastActivity : Nat) : Nat :=
  match bits with
  | none => now - lastActivity
  | some k => (now - lastActivity) % 2 ^ k

/-- The inactivity test: strictly greater (rule R103). -/
def timedOut (bits : Option Nat) (s : State) : Bool :=
  decide (TIMEOUT_MS < elapsed bits s.now s.lastActivity)

/-- The change in millimetres between two distances (rule R107's `Δ`). -/
def changeMm (d0 d1 : Nat) : Nat := (d1 - d0) + (d0 - d1)

/-- What the spec leaves open about the hysteresis test (rules R11 and R107): its float format; by draw number and distances,
the answer at exactly 10 mm; and every answer in a format that rule R107 does not evaluate. -/
structure HystTest where
  fmt : FloatFmt
  eq10 : Nat → Nat → Nat → Bool
  other : Nat → Nat → Nat → Bool

/-- The machine's own test (logs 8 and 9). -/
def Config.hyst : HystTest := ⟨Config.floatFmt, Config.hystEq10, Config.hystOther⟩

/-- Whether the test's answer for a change is one the spec leaves open (rule R107). -/
def hysteresisIsOpen (fmt : FloatFmt) (d0 d1 : Nat) : Bool :=
  match fmt with
  | .binary32 => decide (changeMm d0 d1 = HYST_MM)
  | .binary64 => decide (changeMm d0 d1 = HYST_MM)
  | .other _ => true

/-- The hysteresis test `|m - p| ≥ 0.01` of rule R107, at a draw number: in binary32 and binary64 false below 10 mm, true above,
and open at exactly 10 mm; in another format open. -/
def hysteresisPasses (h : HystTest) (draw d0 d1 : Nat) : Bool :=
  match h.fmt with
  | .binary32 => if changeMm d0 d1 = HYST_MM then h.eq10 draw d0 d1 else decide (HYST_MM < changeMm d0 d1)
  | .binary64 => if changeMm d0 d1 = HYST_MM then h.eq10 draw d0 d1 else decide (HYST_MM < changeMm d0 d1)
  | .other _ => h.other draw d0 d1

end Sys2Proof.Machine
end

