-- ==== Sys2Proof/Machine/Passes.lean ====
section
/-! DEFINITION. The synchronizer loop (rules R68 to R78). What one row at the buffer front does is its recovery and its event
(the last two columns of rules R95 and R113); the loop performs the row at the front until it stops. -/

namespace Sys2Proof.Machine

/-- The recovery of a row (rule R113). -/
inductive Recovery where
  /-- Drop `n` bytes from the front and re-enter the loop at step 2 (rules R72, R73, R77, R78). -/
  | drop (n : Nat)
  /-- Clear the buffer and stop (rule R74). -/
  | clearStop
deriving DecidableEq, Repr

/-- What one pass of the loop does for the row at the front. -/
structure Pass where
  recovery : Recovery
  event : Event
deriving DecidableEq, Repr

/-- The length of a frame with this payload: `T = 7 + L + 2` (rule R48). -/
def frameLength (payload : List Byte) : Nat := 7 + payload.length + 2

/-- FRAME_DISTANCE: consume the frame; `d` is frame bytes 13 and 14 (rules R77, R91, R93). -/
def distancePass (t : Byte) (payload : List Byte) : Option Pass :=
  if (Instr.frameDistance t payload).wellFormed then
    match distanceField (frameSpan t payload) with
    | some d => some ⟨.drop (frameLength payload), .frameDistance d⟩
    | none => none
  else none

/-- FRAME_NO_TARGET: consume the frame (rules R77, R92). -/
def noTargetPass (t : Byte) (payload : List Byte) : Option Pass :=
  if (Instr.frameNoTarget t payload).wellFormed then some ⟨.drop (frameLength payload), .frameNoTarget⟩ else none

/-- FRAME_INSUFFICIENT: consume the frame (rules R77, R90). -/
def insufficientPass (t : Byte) (payload : List Byte) : Option Pass :=
  if (Instr.frameInsufficient t payload).wellFormed then some ⟨.drop (frameLength payload), .frameInsufficient⟩ else none

/-- REJ_HEADER_MISMATCH: drop one byte, which the event carries (rule R72). -/
def headerMismatchPass (h0 h1 h2 h3 : Byte) : Option Pass :=
  if (Instr.rejHeaderMismatch h0 h1 h2 h3).wellFormed then some ⟨.drop 1, .headerMismatch h0⟩ else none

/-- REJ_OVERSIZED_PAYLOAD_FIELD: drop one byte (rule R73). -/
def oversizedPass (t : Byte) (l : Half) : Option Pass :=
  if (Instr.rejOversizedPayloadField t l).wellFormed then some ⟨.drop 1, .oversizedPayloadField l⟩ else none

/-- REJ_FRAME_TOO_LARGE: clear and stop (rule R74). -/
def tooLargePass (t : Byte) (l : Half) : Option Pass :=
  if (Instr.rejFrameTooLarge t l).wellFormed then some ⟨.clearStop, .frameTooLarge (totalLength l)⟩ else none

/-- REJ_CHECKSUM_MISMATCH: drop one byte; the event carries the computed and the received checksum (rules R78, R89). -/
def checksumPass (t : Byte) (payload : List Byte) (x : Half) : Option Pass :=
  if (Instr.rejChecksumMismatch t payload x).wellFormed then
    some ⟨.drop 1, .checksumMismatch (crc16 (frameSpan t payload)) x⟩
  else none

/-- REJ_TOO_SHORT: drop one byte (rules R78, R88). -/
def tooShortPass (n : Nat) : Option Pass :=
  if (Instr.rejTooShort n).wellFormed then some ⟨.drop 1, .tooShort n⟩ else none

/-- The pass of each row; an operation word is no row of the buffer front, and neither is a row whose operands do not meet its
constraint. -/
def rowPass : Instr → Option Pass
  | .byte _ => none
  | .reset => none
  | .init => none
  | .rxTick => none
  | .lmTick => none
  | .diag => none
  | .startCmd => none
  | .frameDistance t p => distancePass t p
  | .frameNoTarget t p => noTargetPass t p
  | .frameInsufficient t p => insufficientPass t p
  | .rejHeaderMismatch h0 h1 h2 h3 => headerMismatchPass h0 h1 h2 h3
  | .rejOversizedPayloadField t l => oversizedPass t l
  | .rejFrameTooLarge t l => tooLargePass t l
  | .rejChecksumMismatch t p x => checksumPass t p x
  | .rejTooShort n => tooShortPass n

/-- The window and the events an operation of the block leaves, or the model fault it raises. -/
abbrev BlockResult := Except Fault (List Byte × List Event)

/-- The events of a pass come before those of the passes after it (rule R112). -/
def afterEvent (ev : Event) : BlockResult → BlockResult
  | .error f => .error f
  | .ok (buf, evs) => .ok (buf, ev :: evs)

/-- Steps 2 to 7, at most `fuel` passes (rules R68 and R70). Every pass that re-enters removes a byte (rule R81), so the
length of the buffer is fuel enough. -/
def syncRun : Nat → List Byte → BlockResult
  | 0, buf => .ok (buf, [])
  | fuel + 1, buf =>
    match decodeFront buf with
    | .ok i =>
      match rowPass i with
      | some ⟨.drop n, ev⟩ =>
        match dropFront n buf with
        | .ok rest => afterEvent ev (syncRun fuel rest)
        | .error f => .error f
      | some ⟨.clearStop, ev⟩ => .ok (clear buf, [ev])
      | none => .error .unwrittenRead
    | .error .unwrittenRead => .error .unwrittenRead
    | .error _ => .ok (buf, [])

/-- The loop of rule R68, from its step 2 to its stop. -/
def syncLoop (buf : List Byte) : BlockResult := syncRun buf.length buf

/-- One pass, then the loop again where the row re-enters it (rules R70, R72, R73, R77, R78). -/
def passThenLoop (p : Pass) (buf : List Byte) : BlockResult :=
  match p.recovery with
  | .drop n =>
    match dropFront n buf with
    | .ok rest => afterEvent p.event (syncLoop rest)
    | .error f => .error f
  | .clearStop => .ok (clear buf, [p.event])

/-- `BYTE(b)` on the window: step 1, then the loop (rules R68 and R69). -/
def byteBlock (b : Byte) (buf : List Byte) : BlockResult :=
  match append b buf with
  | some buf' => syncLoop buf'
  | none => .ok ([], [.bufferOverflow])

/-- `BYTE` operations one after another (rule R82). -/
def feedBlock : List Byte → List Byte → BlockResult
  | [], buf => .ok (buf, [])
  | b :: bs, buf =>
    match byteBlock b buf with
    | .error f => .error f
    | .ok (buf', evs) =>
      match feedBlock bs buf' with
      | .error f => .error f
      | .ok (buf'', evs') => .ok (buf'', evs ++ evs')

end Sys2Proof.Machine
end

