-- ==== Sys2Proof/Machine/Publisher.lean ====
section
/-! DEFINITION. `DELIVER`: what the environment does with the events of a `BYTE` (rules R100, R104 to R106), and how an
operation of the block ends (rules R96 and R112). What the spec leaves open about the hysteresis test comes in as an argument. -/

namespace Sys2Proof.Machine

/-- `publish(value)`, with the value it is remembered by (rules R105 and R108). -/
def State.publish (s : State) (v : PublishValue) (p : Published) : State :=
  { s with published := s.published ++ [v], lastPublished := p }

/-- `last_activity <- now` (rule R100). -/
def State.touchActivity (s : State) : State := { s with lastActivity := s.now }

/-- `DELIVER(FRAME_NO_TARGET)` to the publisher (rule R104). -/
def publishNoTarget (s : State) : State :=
  match s.lastPublished with
  | .noTarget => s
  | .unset => s.publish .nan .noTarget
  | .distance _ => s.publish .nan .noTarget

/-- `DELIVER(FRAME_DISTANCE(d))` to the publisher (rule R105). An answer the spec leaves open draws one free value (rule R107). -/
def publishDistance (hyst : HystTest) (d : Nat) (s : State) : State :=
  match s.lastPublished with
  | .unset => s.publish (.metres ⟨d⟩) (.distance ⟨d⟩)
  | .noTarget => s.publish (.metres ⟨d⟩) (.distance ⟨d⟩)
  | .distance p =>
    let drawn := if hysteresisIsOpen hyst.fmt p.mm d then { s with draws := s.draws + 1 } else s
    if hysteresisPasses hyst s.draws p.mm d then drawn.publish (.metres ⟨d⟩) (.distance ⟨d⟩) else drawn

/-- `DELIVER(e)`: a success refreshes the link's activity and goes to the publisher; an error does neither (rules R100, R104 to
R106, R114). -/
def deliver (hyst : HystTest) (e : Event) (s : State) : State :=
  match e with
  | .frameDistance d => publishDistance hyst d.toNat s.touchActivity
  | .frameNoTarget => publishNoTarget s.touchActivity
  | .frameInsufficient => s.touchActivity
  | .bufferOverflow => s
  | .headerMismatch _ => s
  | .oversizedPayloadField _ => s
  | .frameTooLarge _ => s
  | .checksumMismatch _ _ => s
  | .tooShort _ => s
  | .linkTimeout => s

/-- The events of one operation delivered in order (rule R99). -/
def deliverAll (hyst : HystTest) : List Event → State → State
  | [], s => s
  | e :: es, s => deliverAll hyst es (deliver hyst e s)

/-- The environment, where there is one, receives the events of the block's operations (rules R96 and R101; log 4). -/
def deliverInSystem (hyst : HystTest) (evs : List Event) (s : State) : State :=
  match s.mode with
  | .system => deliverAll hyst evs s
  | .fresh => s
  | .blockAlone => s

/-- The end of an operation of the block: the window, the trace, the delivery (rules R7, R96, R112). -/
def finishBlock (hyst : HystTest) (s : State) : BlockResult → Result
  | .ok (buf, evs) => .next (deliverInSystem hyst evs ((s.setWindow buf).emit evs))
  | .error f => .fault f

/-- A frame or reject row: its pass at the front of the window, then the loop (rules R68 and R70; log 5). -/
def execRow (mnemonic : String) (pass : Option Pass) (s : State) : Result :=
  match pass with
  | some p => finishBlock Config.hyst s.enterBlock (passThenLoop p s.window)
  | none => .refused (.outsideClass mnemonic)

end Sys2Proof.Machine
end

