-- ==== Sys2Proof/Machine/Block.lean ====
section
/-! DEFINITION. The two operations of the block's port: BYTE (rule R68) and RESET (rule R125). -/

namespace Sys2Proof.Machine

/-- `BYTE(b)` (rule R68), with its events delivered where there is an environment (rules R96 and R113; log 4). -/
def byteWith (hyst : HystTest) (b : Byte) (s : State) : Result :=
  finishBlock hyst s.enterBlock (byteBlock b s.window)

/-- BYTE (rule R68). -/
def execByte (b : Byte) (s : State) : Result := byteWith Config.hyst b s

/-- RESET (rules R125 and R126). -/
def execReset (s : State) : Result :=
  .next { s.enterBlock.setWindow (clear s.window) with
    started := false, lastActivity := 0, lastPublished := .unset }

end Sys2Proof.Machine
end

