-- ==== Sys2Proof/Machine/Environment.lean ====
section
/-! DEFINITION. The operations of the environment: INIT, RX_TICK, LM_TICK, DIAG (rules R99, R101, R103, R109) and the outbound
start command (rules R49 and R102). The open parameters come in as arguments of the `...With` forms. -/

namespace Sys2Proof.Machine

/-- INIT (rule R101): only as the first operation of a run. -/
def execInit (s : State) : Result :=
  match s.mode with
  | .fresh =>
    .next { (s.setWindow []) with
      started := false, lastActivity := 0, lastPublished := .unset, mode := .system }.sendStart
  | .blockAlone => .refused .initNotFirst
  | .system => .refused .initNotFirst

/-- The loop of rule R99: at most `k` more bytes. A read with bytes available draws one free value, and `None` ends the tick
(rule R97, D15; log 7). -/
def drainWith (readNone : Nat → Bool) (hyst : HystTest) : Nat → State → Result
  | 0, s => .next s
  | k + 1, s =>
    match s.rxq with
    | [] => .next s
    | b :: rest =>
      if readNone s.draws then .next { s with draws := s.draws + 1 }
      else match byteWith hyst b { s with rxq := rest, draws := s.draws + 1 } with
        | .next s' => drainWith readNone hyst k s'
        | .fault f => .fault f
        | .refused r => .refused r

/-- RX_TICK (rule R99). -/
def rxTickWith (readNone : Nat → Bool) (hyst : HystTest) (s : State) : Result :=
  inSystem "RX_TICK" s (drainWith readNone hyst RX_CAP s)

/-- RX_TICK (rule R99). -/
def execRxTick (s : State) : Result := rxTickWith Config.readNone Config.hyst s

/-- LM_TICK (rule R103) on a clock of the given width. -/
def lmTickWith (clockBits : Option Nat) (s : State) : Result :=
  inSystem "LM_TICK" s
    (if !s.started then .next s.sendStart
     else if timedOut clockBits s then .next (s.emit [.linkTimeout]).sendStart
     else .next s)

/-- LM_TICK (rule R103). -/
def execLmTick (s : State) : Result := lmTickWith Config.clockBits s

/-- The diagnostics record (rule R109). -/
def diagRecord (s : State) : DiagRecord where
  capacity := CAP
  linkStarted := s.started
  timeoutMs := TIMEOUT_MS
  hysteresisM := ⟨HYST_MM⟩

/-- DIAG (rule R109): read-only; the record it returns is an observation. -/
def execDiag (s : State) : Result :=
  inSystem "DIAG" s (.next { s with diagLog := s.diagLog ++ [diagRecord s] })

/-- START_CMD: the environment sends the start command (rules R49 and R102). -/
def execStartCmd (s : State) : Result := inSystem "START_CMD" s (.next s.sendStart)

end Sys2Proof.Machine
end

