-- ==== Sys2Proof/Machine/Frames.lean ====
section
/-! DEFINITION. The three frame rows: a valid frame at the buffer front is consumed (rules R77 and R90 to R93). -/

namespace Sys2Proof.Machine

/-- FRAME_DISTANCE (rules R77 and R93). -/
def execFrameDistance (t : Byte) (payload : List Byte) (s : State) : Result :=
  execRow "FRAME_DISTANCE" (distancePass t payload) s

/-- FRAME_NO_TARGET (rules R77 and R92). -/
def execFrameNoTarget (t : Byte) (payload : List Byte) (s : State) : Result :=
  execRow "FRAME_NO_TARGET" (noTargetPass t payload) s

/-- FRAME_INSUFFICIENT (rules R77 and R90). -/
def execFrameInsufficient (t : Byte) (payload : List Byte) (s : State) : Result :=
  execRow "FRAME_INSUFFICIENT" (insufficientPass t payload) s

end Sys2Proof.Machine
end

