-- ==== Sys2Proof/Machine/Rejects.lean ====
section
/-! DEFINITION. The five reject rows: an event and a recovery step (rule R54). -/

namespace Sys2Proof.Machine

/-- REJ_HEADER_MISMATCH (rule R72). -/
def execRejHeaderMismatch (h0 h1 h2 h3 : Byte) (s : State) : Result :=
  execRow "REJ_HEADER_MISMATCH" (headerMismatchPass h0 h1 h2 h3) s

/-- REJ_OVERSIZED_PAYLOAD_FIELD (rule R73). -/
def execRejOversizedPayloadField (t : Byte) (l : Half) (s : State) : Result :=
  execRow "REJ_OVERSIZED_PAYLOAD_FIELD" (oversizedPass t l) s

/-- REJ_FRAME_TOO_LARGE (rule R74). -/
def execRejFrameTooLarge (t : Byte) (l : Half) (s : State) : Result :=
  execRow "REJ_FRAME_TOO_LARGE" (tooLargePass t l) s

/-- REJ_CHECKSUM_MISMATCH (rules R78 and R89). -/
def execRejChecksumMismatch (t : Byte) (payload : List Byte) (x : Half) (s : State) : Result :=
  execRow "REJ_CHECKSUM_MISMATCH" (checksumPass t payload x) s

/-- REJ_TOO_SHORT (rules R78 and R88). -/
def execRejTooShort (n : Nat) (s : State) : Result :=
  execRow "REJ_TOO_SHORT" (tooShortPass n) s

end Sys2Proof.Machine
end

