-- ==== Sys2Proof/Machine/Dispatch.lean ====
section
/-! DEFINITION. The dispatch: one arm per constructor, each one direct call of the row's own meaning. -/

namespace Sys2Proof.Machine

def exec (i : Instr) (s : State) : Host.Outcome State Fault Refusal :=
  match i with
  | .byte b => Sys2Proof.Machine.execByte b s
  | .reset => Sys2Proof.Machine.execReset s
  | .init => Sys2Proof.Machine.execInit s
  | .rxTick => Sys2Proof.Machine.execRxTick s
  | .lmTick => Sys2Proof.Machine.execLmTick s
  | .diag => Sys2Proof.Machine.execDiag s
  | .frameDistance t payload => Sys2Proof.Machine.execFrameDistance t payload s
  | .frameNoTarget t payload => Sys2Proof.Machine.execFrameNoTarget t payload s
  | .frameInsufficient t payload => Sys2Proof.Machine.execFrameInsufficient t payload s
  | .startCmd => Sys2Proof.Machine.execStartCmd s
  | .rejHeaderMismatch h0 h1 h2 h3 => Sys2Proof.Machine.execRejHeaderMismatch h0 h1 h2 h3 s
  | .rejOversizedPayloadField t l => Sys2Proof.Machine.execRejOversizedPayloadField t l s
  | .rejFrameTooLarge t l => Sys2Proof.Machine.execRejFrameTooLarge t l s
  | .rejChecksumMismatch t payload x => Sys2Proof.Machine.execRejChecksumMismatch t payload x s
  | .rejTooShort n => Sys2Proof.Machine.execRejTooShort n s

end Sys2Proof.Machine
end

