-- ==== Sys2Proof/Machine/Fetch.lean ====
section
/-! DEFINITION. What the machine does next, and where a table word is placed so that it comes next. FSYNC has no program and
no program counter (rules R20 and R42): an operation is presented to it (rule R7). Here it stands at the head of `State.port`;
where the port is empty and the buffer front is undecided, the loop of rule R70 goes on from there (logs 2, 5 and 15). -/

namespace Sys2Proof.Machine

/-- Decode, then perform. -/
def runEncoded (e : Encoded) (s : State) : Result :=
  match decode e with
  | .ok i => exec i s
  | .error why => .refused (.rejected why)

/-- The row at the buffer front; Hunting and LengthKnown wait, with nothing changed (rules R71, R75 and R124). -/
def runFront (s : State) : Result :=
  match decodeFront s.window with
  | .ok i => exec i s
  | .error .hunting => .next s
  | .error .lengthKnown => .next s
  | .error why => .refused (.rejected why)

/-- The clock advances and never decreases (rules R56 and R98). -/
def clockTo (t : Nat) (s : State) : Result :=
  if t < s.now then .refused .clockDecreases else .next { s with now := t }

/-- The transport received bytes; they queue in order, up to the depth of the queue (rules R56 and R110; log 23). -/
def receiveWith (depth : Option Nat) (bytes : List Byte) (s : State) : Result :=
  .next { s with rxq := enqueue depth s.rxq bytes }

/-- The transport received bytes (rules R56 and R110). -/
def receiveBytes (bytes : List Byte) (s : State) : Result := receiveWith Config.rxqDepth bytes s

/-- One thing presented from outside. -/
def runInput (x : Input) (s : State) : Result :=
  match x with
  | .op w => runEncoded (.op w) s
  | .clock t => clockTo t s
  | .receive bytes => receiveBytes bytes s
  | .command bytes => runEncoded (.command bytes) s
  | .candidate n => runEncoded (.candidate n) s

/-- The next step: the head of the port, else the buffer front. -/
def runNext (s : State) : Result :=
  match s.port with
  | [] => runFront s
  | x :: rest => runInput x { s with port := rest }

/-- The run in which an instruction can come next: INIT as the first operation, the environment's operations after an INIT
(rule R101; log 21). -/
def modeFor (i : Instr) (mode : RunMode) : RunMode :=
  match i with
  | .init => .fresh
  | .rxTick => .system
  | .lmTick => .system
  | .diag => .system
  | .startCmd => .system
  | .byte _ => mode
  | .reset => mode
  | .frameDistance _ _ => mode
  | .frameNoTarget _ _ => mode
  | .frameInsufficient _ _ => mode
  | .rejHeaderMismatch _ _ _ _ => mode
  | .rejOversizedPayloadField _ _ => mode
  | .rejFrameTooLarge _ _ => mode
  | .rejChecksumMismatch _ _ _ => mode
  | .rejTooShort _ => mode

/-- `modeFor` of what is about to be decoded, where it decodes. -/
def modeForEncoded (e : Encoded) (mode : RunMode) : RunMode :=
  match decode e with
  | .ok i => modeFor i mode
  | .error _ => mode

/-- A window with something to drop: the seven bytes the loop holds whenever it decodes (rule R71; log 21). -/
def windowForCandidate (buf : List Byte) : List Byte :=
  if buf.length < MIN_HDRLEN then List.replicate MIN_HDRLEN 0 else buf

/-- Place what the decoder reads where the next step takes it (log 21). -/
def placeEncoded (e : Encoded) (s : State) : State :=
  match e with
  | .op w => { s with port := .op w :: s.port, mode := modeForEncoded (.op w) s.mode }
  | .front bytes => { s.setWindow bytes with port := [] }
  | .command bytes => { s with port := .command bytes :: s.port, mode := modeForEncoded (.command bytes) s.mode }
  | .candidate n => { s.setWindow (windowForCandidate s.window) with port := .candidate n :: s.port }

/-- Place a table word (log 21). -/
def placeWord (nbits w : Nat) (s : State) : State :=
  match tableEncoded nbits w with
  | some e => placeEncoded e s
  | none => s

end Sys2Proof.Machine
end

