-- ==== Sys2Proof/Machine/Step.lean ====
section
/-! DEFINITION. One step of the machine, and the placing of a table word for it. -/

namespace Sys2Proof.Machine

/-- One step: one operation, complete and atomic (rules R7 and R38), or one action of the transport. -/
def step (s : State) : Host.Outcome State Fault Refusal := runNext s

/-- `s` with the table word placed so that the next step runs it (log 21). -/
def State.withFetchWord (s : State) (nbits w : Nat) : State := placeWord nbits w s

end Sys2Proof.Machine
end

