-- ==== Sys2Proof/Machine/Float.lean ====
section
/-! DEFINITION. Metre values as floats (rules R94 and R107): the exact quotient rounded to nearest, ties to even, in binary32
or binary64, and a free value in any other format. PRESUMED: the rounding is the spec's supply from general knowledge (G3;
log 17). The machine holds a metre value by its millimetre count; this file says which float that is, and gives the hysteresis
test as it is evaluated on floats. -/

namespace Sys2Proof.Machine

/-- Bits of significand of the formats rule R107 evaluates. -/
def precisionOf : FloatFmt → Option Nat
  | .binary32 => some 24
  | .binary64 => some 53
  | .other _ => none

/-- The float zero. -/
def floatZero : FloatVal := ⟨0, 1⟩

/-- `a / b` rounded to the nearest integer, ties to even. -/
def roundDiv (a b : Nat) : Nat :=
  if 2 * (a % b) < b then a / b
  else if b < 2 * (a % b) then a / b + 1
  else a / b + a / b % 2

/-- `a / b` rounded to nearest, ties to even, to `prec` bits, for `a / b` below `2 ^ (prec - 1)`. Every value rules R94 and R107
form is 0 or lies between 2^-100 and 66, so neither the exponent range nor a subnormal is ever met. -/
def roundTo (prec a b : Nat) : FloatVal :=
  if a = 0 then floatZero
  else
    let k := prec + Nat.log2 b - Nat.log2 a
    let k := if 2 ^ prec ≤ a * 2 ^ k / b then k - 1 else k
    ⟨roundDiv (a * 2 ^ k) b, 2 ^ k⟩

/-- The metre value as a float: `mm / 1000.0` (rule R94). 0 mm is 0.0 m in every format (rule R93); any other value is a free
value in a format other than binary32 and binary64 (log 9). -/
def metreFloat (fmt : FloatFmt) (m : Metre) : FloatVal :=
  if m.mm = 0 then floatZero
  else match fmt with
  | .binary32 => roundTo 24 m.mm 1000
  | .binary64 => roundTo 53 m.mm 1000
  | .other k => Config.otherFloat k m.mm

/-- The absolute value of the float difference (rule R107). -/
def floatAbsDiff (prec : Nat) (x y : FloatVal) : FloatVal :=
  roundTo prec ((x.num * y.den - y.num * x.den) + (y.num * x.den - x.num * y.den)) (x.den * y.den)

/-- `x ≥ y` on floats. -/
def floatGe (x y : FloatVal) : Bool := decide (y.num * x.den ≤ x.num * y.den)

/-- `|d1/1000 - d0/1000| ≥ 0.01` with every operand and the constant in the format (rule R107); `none` in a format whose
arithmetic the spec does not give. -/
def hysteresisOnFloats (fmt : FloatFmt) (d0 d1 : Nat) : Option Bool :=
  (precisionOf fmt).map fun prec =>
    floatGe (floatAbsDiff prec (metreFloat fmt ⟨d1⟩) (metreFloat fmt ⟨d0⟩)) (roundTo prec 1 100)

/-- The float the consumer receives for a metre value, and `none` for NaN (rule R108). -/
def publishedFloat (fmt : FloatFmt) : PublishValue → Option FloatVal
  | .metres m => some (metreFloat fmt m)
  | .nan => none

/-- What the consumer saw, in the format `FLOAT_FMT` (rules R11 and R108). -/
def State.consumerSaw (s : State) : List (Option FloatVal) := s.published.map (publishedFloat Config.floatFmt)

end Sys2Proof.Machine
end

