-- ==== Sys2Proof/Machine/Stimulus.lean ====
section
/-! DEFINITION. The stimulus programs of rules R56 and R57: their statements, the pseudo-operations' expansions, and a reader of
the line-oriented text. A program is loaded into the port from outside (log 14). -/

namespace Sys2Proof.Machine

/-- The statements of rule R56 and the pseudo-operations of rule R57. -/
inductive Stmt where
  | byte (b : Byte)
  | reset
  | init (t : Nat)
  | rxTick (t : Option Nat)
  | lmTick (t : Nat)
  | diag
  | queue (bytes : List Byte)
  | bytes (bytes : List Byte)
  | frame (t : Byte) (payload : List Byte)
  | meas (mm : Nat) (t : Byte)
  | start
  | qframe (t : Byte) (payload : List Byte)
  | qmeas (mm : Nat) (t : Byte)
  | qstart
deriving DecidableEq, Repr

/-- The payload of `MEAS mm`: 14 bytes, the distance at payload offsets 6 and 7 (rule R57). -/
def measPayload (mm : Half) : List Byte :=
  [0, 0, 0, 0, 0, 0, loByte mm, hiByte mm, 0, 0, 0, 0, 0, 0]

/-- The bytes of `FRAME`; refused with more than 32 payload bytes (rule R57). -/
def frameStimulus (t : Byte) (payload : List Byte) : Option (List Byte) :=
  if payload.length ≤ MAX_PAYLOAD then some (frameBytes t payload) else none

/-- The bytes of `MEAS`; refused above 65535 (rule R57). -/
def measStimulus (mm : Nat) (t : Byte) : Option (List Byte) :=
  if mm ≤ 65535 then frameStimulus t (measPayload (BitVec.ofNat 16 mm)) else none

/-- The `BYTE` words of a list of bytes (rules R45 and R57). -/
def byteInputs (bytes : List Byte) : List Input := bytes.map fun b => .op (0x0#4 ++ b)

/-- What a statement presents to the machine (rules R56 and R57); `none` where the text refuses it. -/
def expandStmt : Stmt → Option (List Input)
  | .byte b => some (byteInputs [b])
  | .reset => some [.op 0x100]
  | .init t => some [.clock t, .op 0x800]
  | .rxTick none => some [.op 0x900]
  | .rxTick (some t) => some [.clock t, .op 0x900]
  | .lmTick t => some [.clock t, .op 0xA00]
  | .diag => some [.op 0xB00]
  | .queue bs => some [.receive bs]
  | .bytes bs => some (byteInputs bs)
  | .frame t p => (frameStimulus t p).map byteInputs
  | .meas mm t => (measStimulus mm t).map byteInputs
  | .start => some (byteInputs START_CMD)
  | .qframe t p => (frameStimulus t p).map fun bs => [.receive bs]
  | .qmeas mm t => (measStimulus mm t).map fun bs => [.receive bs]
  | .qstart => some [.receive START_CMD]

/-- The clock value a statement sets (rule R56). -/
def stmtTime : Stmt → Option Nat
  | .init t => some t
  | .rxTick t => t
  | .lmTick t => some t
  | .byte _ => none
  | .reset => none
  | .diag => none
  | .queue _ => none
  | .bytes _ => none
  | .frame _ _ => none
  | .meas _ _ => none
  | .start => none
  | .qframe _ _ => none
  | .qmeas _ _ => none
  | .qstart => none

/-- Whether the `@t` values of a program never decrease, from a given clock value on (rule R56, I22). -/
def timesRise : Nat → List Stmt → Bool
  | _, [] => true
  | now, st :: rest =>
    match stmtTime st with
    | none => timesRise now rest
    | some t => decide (now ≤ t) && timesRise t rest

/-- The inputs of the statements in text order. -/
def expandAll : List Stmt → Option (List Input)
  | [] => some []
  | st :: rest => do
    let xs ← expandStmt st
    let ys ← expandAll rest
    return xs ++ ys

/-- The state with a program loaded behind what the port holds; `none` for an ill-formed program (rule R56, I22). -/
def loadProgram (program : List Stmt) (s : State) : Option State :=
  if timesRise s.now program then
    (expandAll program).map fun xs => { s with port := s.port ++ xs }
  else none

/-! ### The text of rule R56 (log 25) -/

/-- A token: a run of characters, or one of `: @ [ ] =` alone. -/
abbrev Token := List Char

/-- Whether a character is a token by itself. -/
def standsAlone (c : Char) : Bool := c == ':' || c == '@' || c == '[' || c == ']' || c == '='

/-- The token collected so far, put before the tokens that follow. -/
def closeToken (word : Token) (rest : List Token) : List Token :=
  match word with
  | [] => rest
  | _ :: _ => word.reverse :: rest

/-- The tokens of a line; `word` is the current one, reversed. A `;` begins a comment (rule R56). -/
def tokensFrom (word : Token) : List Char → List Token
  | [] => closeToken word []
  | c :: cs =>
    if c == ';' then closeToken word []
    else if c == ' ' || c == '\t' then closeToken word (tokensFrom [] cs)
    else if standsAlone c then closeToken word ([c] :: tokensFrom [] cs)
    else tokensFrom (c :: word) cs

/-- The value of a hexadecimal digit. -/
def hexDigit (c : Char) : Option Nat :=
  if '0'.toNat ≤ c.toNat ∧ c.toNat ≤ '9'.toNat then some (c.toNat - '0'.toNat)
  else if 'A'.toNat ≤ c.toNat ∧ c.toNat ≤ 'F'.toNat then some (c.toNat - 'A'.toNat + 10)
  else if 'a'.toNat ≤ c.toNat ∧ c.toNat ≤ 'f'.toNat then some (c.toNat - 'a'.toNat + 10)
  else none

/-- `hh`: two hexadecimal digits. -/
def readHexByte : Token → Option Byte
  | [h, l] => do
    let h ← hexDigit h
    let l ← hexDigit l
    return BitVec.ofNat 8 (16 * h + l)
  | _ => none

/-- `hh {hh}`, or nothing. -/
def readHexBytes : List Token → Option (List Byte)
  | [] => some []
  | tok :: rest => do
    let b ← readHexByte tok
    let bs ← readHexBytes rest
    return b :: bs

/-- A decimal integer, most significant digit first. -/
def readDecimalFrom (acc : Nat) : Token → Option Nat
  | [] => some acc
  | c :: cs =>
    if '0'.toNat ≤ c.toNat ∧ c.toNat ≤ '9'.toNat then readDecimalFrom (10 * acc + (c.toNat - '0'.toNat)) cs
    else none

/-- A decimal integer of at least one digit. -/
def readDecimal : Token → Option Nat
  | [] => none
  | c :: cs => readDecimalFrom 0 (c :: cs)

/-- `[ hh ... hh ]` to the end of the line, after the opening bracket. -/
def readBracketed (toks : List Token) : Option (List Byte) :=
  match toks.getLast? with
  | some [']'] => readHexBytes toks.dropLast
  | _ => none

/-- `type = tt payload = [ ... ]` (rule R57). -/
def readFrameArgs : List Token → Option (Byte × List Byte)
  | ['t', 'y', 'p', 'e'] :: ['='] :: tt :: ['p', 'a', 'y', 'l', 'o', 'a', 'd'] :: ['='] :: ['['] :: rest => do
    let t ← readHexByte tt
    let p ← readBracketed rest
    return (t, p)
  | _ => none

/-- `mm [type = tt]`, the type being 01 by default (rule R57). -/
def readMeasArgs : List Token → Option (Nat × Byte)
  | [mm] => (readDecimal mm).map fun n => (n, 0x01)
  | [mm, ['t', 'y', 'p', 'e'], ['='], tt] => do
    let n ← readDecimal mm
    let t ← readHexByte tt
    return (n, t)
  | _ => none

/-- `@ t`. -/
def readAt : List Token → Option Nat
  | [['@'], t] => readDecimal t
  | _ => none

/-- One statement (rules R56 and R57). -/
def readStmt : List Token → Option Stmt
  | ['B', 'Y', 'T', 'E'] :: [b] => (readHexByte b).map .byte
  | [['R', 'E', 'S', 'E', 'T']] => some .reset
  | ['I', 'N', 'I', 'T'] :: args => (readAt args).map .init
  | [['R', 'X', '_', 'T', 'I', 'C', 'K']] => some (.rxTick none)
  | ['R', 'X', '_', 'T', 'I', 'C', 'K'] :: args => (readAt args).map fun t => .rxTick (some t)
  | ['L', 'M', '_', 'T', 'I', 'C', 'K'] :: args => (readAt args).map .lmTick
  | [['D', 'I', 'A', 'G']] => some .diag
  | ['Q', 'U', 'E', 'U', 'E'] :: b :: bs => (readHexBytes (b :: bs)).map .queue
  | ['B', 'Y', 'T', 'E', 'S'] :: b :: bs => (readHexBytes (b :: bs)).map .bytes
  | ['F', 'R', 'A', 'M', 'E'] :: args => (readFrameArgs args).map fun a => .frame a.1 a.2
  | ['M', 'E', 'A', 'S'] :: args => (readMeasArgs args).map fun a => .meas a.1 a.2
  | [['S', 'T', 'A', 'R', 'T']] => some .start
  | ['Q', 'F', 'R', 'A', 'M', 'E'] :: args => (readFrameArgs args).map fun a => .qframe a.1 a.2
  | ['Q', 'M', 'E', 'A', 'S'] :: args => (readMeasArgs args).map fun a => .qmeas a.1 a.2
  | [['Q', 'S', 'T', 'A', 'R', 'T']] => some .qstart
  | _ => none

/-- One line: `[label ":"] stmt [";" comment]` (rule R56). -/
def readLine (line : List Char) : Option Stmt :=
  match tokensFrom [] line with
  | _ :: [':'] :: toks => readStmt toks
  | toks => readStmt toks

/-- A program, line by line (rule R56). -/
def readProgram : List (List Char) → Option (List Stmt)
  | [] => some []
  | line :: rest => do
    let st ← readLine line
    let sts ← readProgram rest
    return st :: sts

end Sys2Proof.Machine
end

