-- ==== Sys2Proof/Safety.lean ====
section
/-! DEFINITION. The words claims are stated in: the invariant of the machine between operations (rules R17, R26, R79, R98,
R101, R113), and the state an operation of the block leaves for a given window and list of events. -/

namespace Sys2Proof.Machine

/-- A stable window (rule R79): too short to examine, or an accepted header and length waiting for the rest of its frame. -/
def stable (buf : List Byte) : Bool :=
  decide (buf.length < MIN_HDRLEN) ||
    (buf.take HDR.length == HDR &&
      match lengthField buf with
      | some l => decide (l.toNat ≤ MAX_PAYLOAD) && decide (buf.length < totalLength l)
      | none => false)

/-- A published distance is one of 0..65534 mm (rule R113). -/
def publishedInRange : Published → Bool
  | .unset => true
  | .noTarget => true
  | .distance m => decide (m.mm ≤ 65534)

/-- A receive queue of this length fits the depth (rule R11). -/
def fitsDepth (depth : Option Nat) (length : Nat) : Bool :=
  match depth with
  | none => true
  | some n => decide (length ≤ n)

/-- What holds between operations: the buffer is canonical and stable (rules R17 and R79), the last activity is not in the
future (rule R98), nothing is left to transmit (rule R26), only a system run has started the link (rule R101), a remembered
distance is in range (rule R113), and the receive queue fits its depth (rule R11). -/
structure State.Inv (s : State) : Prop where
  bufWf : Memory.wf s.buf = true
  windowStable : stable s.window = true
  activityPast : s.lastActivity ≤ s.now
  allSent : s.txq = []
  startedInSystem : s.started = true → s.mode = .system
  rangeKept : publishedInRange s.lastPublished = true
  queueFits : fitsDepth Config.rxqDepth s.rxq.length = true

/-- The state an operation of the block leaves when it leaves the window `buf` and emits `evs` in order: the trace is extended
and, where there is an environment, the events are delivered (rules R7, R27, R96, R112). -/
def State.afterBlock (s : State) (buf : List Byte) (evs : List Event) : State :=
  deliverInSystem Config.hyst evs ((s.enterBlock.setWindow buf).emit evs)

end Sys2Proof.Machine
end

