-- ==== Sys2Proof/Certificates/Slice0/Obligations.lean ====
section
/-! DEFINITION. The statements for the provers. Each one's docstring names the rules of spec/ it formalises. -/

open Sys2Proof Sys2Proof.Machine

/-! ### Encoding and decoding -/

/-- A few words written out from the encoding tables decode to what they stand for (rules R45, R46, R49, R54, R55). -/
def Obligations.WordsDecode : Prop :=
  decodeOp 0x0A5 = .ok (.byte 0xA5) ∧ decodeOp 0x000 = .ok (.byte 0x00) ∧ decodeOp 0x0FF = .ok (.byte 0xFF) ∧
  decodeOp 0x100 = .ok .reset ∧ decodeOp 0x101 = .error (.nonzeroData 0x1) ∧ decodeOp 0x200 = .error (.reservedOpcode 0x2) ∧
  decodeOp 0x7FF = .error (.reservedOpcode 0x7) ∧ decodeOp 0xFFF = .error (.reservedOpcode 0xF) ∧
  decodeOp 0x800 = .ok .init ∧ decodeOp 0x8FF = .error (.nonzeroData 0x8) ∧ decodeOp 0x900 = .ok .rxTick ∧
  decodeOp 0xA00 = .ok .lmTick ∧ decodeOp 0xB00 = .ok .diag ∧
  decodeCommand [0xA5, 0x03, 0x20, 0x01, 0x00, 0x00, 0x00, 0x02, 0x6E] = .ok .startCmd ∧
  decodeFront [0xA5, 0x03, 0x20, 0x01, 0x00, 0x00, 0x00, 0x02, 0x6E] = .ok (.frameInsufficient 0x00 []) ∧
  decodeFront [0xA5, 0x03, 0x20, 0x01, 0x01, 0x00, 0x21] = .ok (.rejOversizedPayloadField 0x01 0x0021)

/-- Decoding an encoded well-formed instruction gives it back, for every row and every operand; the one row left out is the one
no front decodes to (rules R45, R46, R49, R54 and R80), which `FrameTooLargeDecodes` covers. -/
def Obligations.EncodeThenDecode : Prop :=
  ∀ i : Instr, i.wellFormed = true → (∀ t l, i ≠ .rejFrameTooLarge t l) → decode (encode i) = .ok i

/-- The row FRAME_TOO_LARGE is decoded where `MAX_PAYLOAD` allows the length field; with the constants of rule R9 the oversized
check, which comes first, takes it (rules R74, R80, R115). -/
def Obligations.FrameTooLargeDecodes : Prop :=
  ∀ (t : Byte) (l : Half) (rest : List Byte), CAP < totalLength l →
    classifyFront 65535 CAP (HDR ++ t :: be16 l ++ rest) = .ok (.rejFrameTooLarge t l) ∧
    decodeFront (HDR ++ t :: be16 l ++ rest) = .ok (.rejOversizedPayloadField t l)

/-- An operation word that decodes is the encoding of what it decodes to: no second word means the same (rule R45). -/
def Obligations.OperationWordsAreTheTable : Prop :=
  ∀ (w : BitVec 12) (i : Instr), decodeOp w = .ok i → encode i = .op w

/-- Words outside the table are refused when presented, and every byte sequence on the wire has a defined outcome (rule R55). -/
def Obligations.OtherWordsRefused : Prop :=
  (∀ (s : State) (w : BitVec 12) (rest : List Input), s.port = .op w :: rest →
    (((2 ≤ (w >>> 8).toNat ∧ (w >>> 8).toNat ≤ 7) ∨ 0xC ≤ (w >>> 8).toNat) →
      step s = .refused (.rejected (.reservedOpcode (w.extractLsb' 8 4)))) ∧
    (((w >>> 8).toNat = 1 ∨ (8 ≤ (w >>> 8).toNat ∧ (w >>> 8).toNat ≤ 0xB)) → w.extractLsb' 0 8 ≠ 0 →
      step s = .refused (.rejected (.nonzeroData (w.extractLsb' 8 4))))) ∧
  ∀ (bytes buf : List Byte), ∃ buf' evs, feedBlock bytes buf = .ok (buf', evs)

/-- DECODE on its own answers exactly the operands of `9 + L` bytes, at most 41, and the synchronizer calls it only that way
(rule R87). -/
def Obligations.DecodeAloneRefuses : Prop :=
  (∀ f : List Byte,
    (∃ r, decodeAlone f = .ok r) ↔ ∃ l, lengthField f = some l ∧ f.length = 9 + l.toNat ∧ f.length ≤ 41) ∧
  ∀ (t : Byte) (l : Half) (rest : List Byte), l.toNat ≤ 32 → 9 + l.toNat ≤ (HDR ++ t :: be16 l ++ rest).length →
    ∃ r, decodeAlone ((HDR ++ t :: be16 l ++ rest).take (9 + l.toNat)) = .ok r ∧
      decodeFront (HDR ++ t :: be16 l ++ rest) = .ok (rowOfResult t (rest.take l.toNat) r)

/-- DECODE's checks in their order on any byte list: too short before everything; then the checksum, whatever the payload holds;
then the length; then the sentinel (rules R86, R88 to R93). -/
def Obligations.DecodeOrder : Prop :=
  ∀ f : List Byte,
    (f.length < 9 → decodeFrame f = some (.error (.tooShort f.length))) ∧
    (9 ≤ f.length → ∀ x, receivedCrc f = some x → crc16 (f.take (f.length - 2)) ≠ x →
      decodeFrame f = some (.error (.checksumMismatch (crc16 (f.take (f.length - 2))) x))) ∧
    (9 ≤ f.length → receivedCrc f = some (crc16 (f.take (f.length - 2))) → ∀ l, lengthField f = some l →
      (l.toNat ≤ 13 → decodeFrame f = some (.ok .insufficient)) ∧
      (14 ≤ l.toNat → ∀ lo hi, f[13]? = some lo → f[14]? = some hi →
        (lo = 0xFF ∧ hi = 0xFF → decodeFrame f = some (.ok .noTarget)) ∧
        (¬ (lo = 0xFF ∧ hi = 0xFF) → decodeFrame f = some (.ok (.distance (u16le lo hi))))))

/-- CRC16 on the empty list, single bytes, the start command's first seven bytes and the digits 1 to 9 (rule R58; the bit loop is
log 16). -/
def Obligations.CrcVectors : Prop :=
  crc16 [] = 0xFFFF ∧ crc16 [0x00] = 0x40BF ∧ crc16 [0xFF] = 0x00FF ∧
  crc16 [0xA5, 0x03, 0x20, 0x01, 0x00, 0x00, 0x00] = 0x026E ∧
  crc16 [0x31, 0x32, 0x33, 0x34, 0x35, 0x36, 0x37, 0x38, 0x39] = 0x4B37

/-- The checksum covers every frame byte but the last two, which are compared with it, high byte first (rules R29, R60, R61). -/
def Obligations.ChecksumSpan : Prop :=
  ∀ (body : List Byte) (hi lo : Byte),
    crcSpan (body ++ [hi, lo]) = body ∧ receivedCrc (body ++ [hi, lo]) = some (u16be hi lo) ∧
    (crcOk (body ++ [hi, lo]) = true ↔ crc16 body = u16be hi lo)

/-! ### The step -/

/-- A step runs the decoded instruction: an operation word, an outbound command or a candidate length at the head of the port on
the state with the port advanced, and with nothing presented the row at an undecided buffer front (rule R7; logs 2, 5, 6). -/
def Obligations.StepRunsDecoded : Prop :=
  ∀ (s : State) (i : Instr),
    (∀ w rest, s.port = .op w :: rest → decodeOp w = .ok i → step s = exec i { s with port := rest }) ∧
    (∀ bs rest, s.port = .command bs :: rest → decodeCommand bs = .ok i → step s = exec i { s with port := rest }) ∧
    (∀ n rest, s.port = .candidate n :: rest → decodeCandidate n = .ok i → step s = exec i { s with port := rest }) ∧
    (s.port = [] → decodeFront s.window = .ok i → step s = exec i s)

/-- The transport's steps: the clock never decreases; received bytes queue in order behind those there, and a byte that finds the
queue at its depth is lost; with nothing presented a stable machine holds its state (rules R11, R56, R98, R110, R124, R133; log
15 for the last, log 23 for the full queue). -/
def Obligations.StepTransport : Prop :=
  (∀ s : State,
    (∀ t rest, s.port = .clock t :: rest → s.now ≤ t → step s = .next { s with port := rest, now := t }) ∧
    (∀ t rest, s.port = .clock t :: rest → t < s.now → step s = .refused .clockDecreases) ∧
    (∀ bs rest, s.port = .receive bs :: rest →
      step s = .next { s with port := rest, rxq := enqueue Config.rxqDepth s.rxq bs }) ∧
    (s.port = [] → stable s.window = true → step s = .next s)) ∧
  ∀ q bs : List Byte, enqueue none q bs = q ++ bs ∧
    ∀ n, (q.length + bs.length ≤ n → enqueue (some n) q bs = q ++ bs) ∧
      (n ≤ q.length → enqueue (some n) q bs = q) ∧
      (q.length ≤ n → (enqueue (some n) q bs).length ≤ n ∧ q <+: enqueue (some n) q bs ∧ enqueue (some n) q bs <+: q ++ bs)

/-! ### BYTE -/

/-- BYTE appends and runs the loop on the longer window; at a full buffer it discards everything and reports the overflow
(rules R63, R68, R69). It completes in every state. Delivery of the events in a system run is log 4. -/
def Obligations.ByteResult : Prop :=
  ∀ (s : State) (b : Byte),
    (s.window.length < 64 → ∃ buf evs, syncLoop (s.window ++ [b]) = .ok (buf, evs) ∧
      exec (.byte b) s = .next (s.afterBlock buf evs)) ∧
    (64 ≤ s.window.length → exec (.byte b) s = .next (s.afterBlock [] [.bufferOverflow]))

/-- The loop of BYTE, pass by pass: it stops with fewer than 7 bytes or an unfinished frame; a header mismatch, an oversized
length field and a failed checksum drop one byte and re-enter; a decoded frame is dropped whole and the loop re-entered
(rules R70 to R73 and R75 to R78). -/
def Obligations.LoopPasses : Prop :=
  ∀ buf : List Byte,
    (buf.length < 7 → syncLoop buf = .ok (buf, [])) ∧
    (∀ b rest, buf = b :: rest → 7 ≤ buf.length → buf.take 4 ≠ [0xA5, 0x03, 0x20, 0x01] →
      syncLoop buf = afterEvent (.headerMismatch b) (syncLoop rest)) ∧
    ∀ t l rest, buf = [0xA5, 0x03, 0x20, 0x01] ++ t :: be16 l ++ rest →
      (33 ≤ l.toNat → syncLoop buf = afterEvent (.oversizedPayloadField l) (syncLoop (buf.drop 1))) ∧
      (l.toNat ≤ 32 → buf.length < 9 + l.toNat → syncLoop buf = .ok (buf, [])) ∧
      (l.toNat ≤ 32 → 9 + l.toNat ≤ buf.length →
        (∀ d, decodeFrame (buf.take (9 + l.toNat)) = some (.ok (.distance d)) →
          syncLoop buf = afterEvent (.frameDistance d) (syncLoop (buf.drop (9 + l.toNat)))) ∧
        (decodeFrame (buf.take (9 + l.toNat)) = some (.ok .noTarget) →
          syncLoop buf = afterEvent .frameNoTarget (syncLoop (buf.drop (9 + l.toNat)))) ∧
        (decodeFrame (buf.take (9 + l.toNat)) = some (.ok .insufficient) →
          syncLoop buf = afterEvent .frameInsufficient (syncLoop (buf.drop (9 + l.toNat)))) ∧
        ∀ c x, decodeFrame (buf.take (9 + l.toNat)) = some (.error (.checksumMismatch c x)) →
          syncLoop buf = afterEvent (.checksumMismatch c x) (syncLoop (buf.drop 1)))

/-- With fewer than 7 bytes buffered BYTE stores the byte, stops and emits nothing, whatever the bytes are (rule R71). -/
def Obligations.ShortBufferWaits : Prop :=
  ∀ (s : State) (b : Byte), s.window.length + 1 < 7 →
    ∃ t, exec (.byte b) s = .next t ∧ t.window = s.window ++ [b] ∧ t.trace = s.trace

/-- With header and accepted length but not all `T` bytes BYTE stops and emits nothing; the buffered bytes stay, the phase is
LengthKnown, and the next byte meets the same header and length (rule R75). -/
def Obligations.UnfinishedFrameWaits : Prop :=
  ∀ (s : State) (b t : Byte) (l : Half) (rest : List Byte), s.window ++ [b] = HDR ++ t :: be16 l ++ rest →
    l.toNat ≤ 32 → (s.window ++ [b]).length < 9 + l.toNat →
    ∃ s', exec (.byte b) s = .next s' ∧ s'.window = s.window ++ [b] ∧ s'.trace = s.trace ∧
      phase s'.window = .lengthKnown ∧ ∀ c, s'.window ++ [c] = HDR ++ t :: be16 l ++ (rest ++ [c])

/-- What BYTE leaves alone: everything but the buffer, the trace, and what its delivered events write; without an environment
those are unchanged too. Every byte left is the byte that stood further back, and nothing is read past the end
(rules R63, R64, R68, R96). -/
def Obligations.ByteFrame : Prop :=
  ∀ (s t : State) (b : Byte), exec (.byte b) s = .next t →
    t.started = s.started ∧ t.rxq = s.rxq ∧ t.now = s.now ∧ t.txq = s.txq ∧ t.line = s.line ∧ t.diagLog = s.diagLog ∧
    t.port = s.port ∧ (s.mode ≠ .fresh → t.mode = s.mode) ∧
    (s.mode ≠ .system → t.lastActivity = s.lastActivity ∧ t.lastPublished = s.lastPublished ∧ t.published = s.published ∧
      t.draws = s.draws) ∧
    (∀ a, a < t.len → Memory.read t.buf a = (s.window ++ [b])[a + (s.len + 1 - t.len)]?) ∧
    (∀ a, t.len ≤ a → Memory.read t.buf a = none)

/-- After BYTE the window is stable and holds at most 40 bytes, whatever it held before (rule R79). -/
def Obligations.ByteLeavesStable : Prop :=
  ∀ (s t : State) (b : Byte), exec (.byte b) s = .next t → stable t.window = true ∧ t.len ≤ 40

/-- From a stable window one BYTE emits at most 35 events (rule R81). -/
def Obligations.ByteEventBound : Prop :=
  ∀ (s t : State) (b : Byte), stable s.window = true → exec (.byte b) s = .next t →
    ∃ evs, t.trace = s.trace ++ evs ∧ evs.length ≤ 35

/-- From a stable window BYTE never reports an overflow, a frame too large or a frame too short (rule R80). -/
def Obligations.UnreachableEvents : Prop :=
  ∀ (s t : State) (b : Byte), stable s.window = true → exec (.byte b) s = .next t →
    ∃ evs, t.trace = s.trace ++ evs ∧ .bufferOverflow ∉ evs ∧ (∀ n, .frameTooLarge n ∉ evs) ∧ ∀ n, .tooShort n ∉ evs

/-! ### The frame and reject rows -/

/-- A valid frame that carries a distance is consumed whole, the event carries payload bytes 6 (low) and 7 (high), and the loop
goes on with what follows (rules R47, R77, R91, R93; that a row runs by itself is the model's choice, log 5). -/
def Obligations.FrameDistanceResult : Prop :=
  ∀ (s : State) (t : Byte) (p : List Byte) (lo hi : Byte), 14 ≤ p.length → p.length ≤ 32 → p[6]? = some lo →
    p[7]? = some hi → ¬ (lo = 0xFF ∧ hi = 0xFF) → 9 + p.length ≤ s.window.length →
    ∃ buf evs, syncLoop (s.window.drop (9 + p.length)) = .ok (buf, evs) ∧
      exec (.frameDistance t p) s = .next (s.afterBlock buf (.frameDistance (u16le lo hi) :: evs))

/-- A valid frame whose distance bytes are both FF is consumed whole as "no target" (rules R77, R92; log 5). -/
def Obligations.FrameNoTargetResult : Prop :=
  ∀ (s : State) (t : Byte) (p : List Byte), 14 ≤ p.length → p.length ≤ 32 → p[6]? = some 0xFF → p[7]? = some 0xFF →
    9 + p.length ≤ s.window.length →
    ∃ buf evs, syncLoop (s.window.drop (9 + p.length)) = .ok (buf, evs) ∧
      exec (.frameNoTarget t p) s = .next (s.afterBlock buf (.frameNoTarget :: evs))

/-- A valid frame of at most 13 payload bytes is consumed whole as "insufficient" (rules R77, R90; log 5). -/
def Obligations.FrameInsufficientResult : Prop :=
  ∀ (s : State) (t : Byte) (p : List Byte), p.length ≤ 13 → 9 + p.length ≤ s.window.length →
    ∃ buf evs, syncLoop (s.window.drop (9 + p.length)) = .ok (buf, evs) ∧
      exec (.frameInsufficient t p) s = .next (s.afterBlock buf (.frameInsufficient :: evs))

/-- A header mismatch drops exactly one byte, which the event carries, and re-enters the loop (rule R72; log 5). -/
def Obligations.HeaderMismatchResult : Prop :=
  ∀ (s : State) (h0 h1 h2 h3 b : Byte) (rest : List Byte), [h0, h1, h2, h3] ≠ HDR → s.window = b :: rest →
    ∃ buf evs, syncLoop rest = .ok (buf, evs) ∧
      exec (.rejHeaderMismatch h0 h1 h2 h3) s = .next (s.afterBlock buf (.headerMismatch h0 :: evs))

/-- A length field above 32 drops one byte and re-enters the loop; 32 itself is accepted (rule R73; log 5). -/
def Obligations.OversizedResult : Prop :=
  (∀ (s : State) (t b : Byte) (l : Half) (rest : List Byte), 33 ≤ l.toNat → s.window = b :: rest →
    ∃ buf evs, syncLoop rest = .ok (buf, evs) ∧
      exec (.rejOversizedPayloadField t l) s = .next (s.afterBlock buf (.oversizedPayloadField l :: evs))) ∧
  ∀ (t : Byte) (l : Half) (rest : List Byte),
    decodeFront (HDR ++ t :: be16 l ++ rest) = .ok (.rejOversizedPayloadField t l) ↔ 33 ≤ l.toNat

/-- A total length above 64 clears the buffer, reports `T` and stops (rule R74; log 5). -/
def Obligations.FrameTooLargeResult : Prop :=
  ∀ (s : State) (t : Byte) (l : Half), 64 < 7 + l.toNat + 2 →
    exec (.rejFrameTooLarge t l) s = .next (s.afterBlock [] [.frameTooLarge (7 + l.toNat + 2)])

/-- A checksum mismatch drops one byte only; the event carries the computed and the received value (rules R78, R89; log 5). -/
def Obligations.ChecksumMismatchResult : Prop :=
  ∀ (s : State) (t b : Byte) (p : List Byte) (x : Half) (rest : List Byte), p.length ≤ 32 →
    crc16 (HDR ++ t :: be16 (BitVec.ofNat 16 p.length) ++ p) ≠ x → s.window = b :: rest →
    ∃ buf evs, syncLoop rest = .ok (buf, evs) ∧ exec (.rejChecksumMismatch t p x) s =
      .next (s.afterBlock buf (.checksumMismatch (crc16 (HDR ++ t :: be16 (BitVec.ofNat 16 p.length) ++ p)) x :: evs))

/-- A candidate of fewer than 9 bytes drops one byte and re-enters the loop (rules R78, R88; logs 5, 6). -/
def Obligations.TooShortResult : Prop :=
  ∀ (s : State) (n : Nat) (b : Byte) (rest : List Byte), n < 9 → s.window = b :: rest →
    ∃ buf evs, syncLoop rest = .ok (buf, evs) ∧ exec (.rejTooShort n) s = .next (s.afterBlock buf (.tooShort n :: evs))

/-- A frame or reject row outside its constraint is refused by its name (rule R87; log 26). A frame row on a window shorter than
its frame, and a row that drops one byte on an empty window, fault: each would drop more than there is (rules R64, R130; that a
row runs by itself is log 5). -/
def Obligations.RowsStop : Prop :=
  ∀ s : State,
    (∀ t p, ((Instr.frameDistance t p).wellFormed = false →
        exec (.frameDistance t p) s = .refused (.outsideClass "FRAME_DISTANCE")) ∧
      ((Instr.frameDistance t p).wellFormed = true → s.window.length < 9 + p.length →
        exec (.frameDistance t p) s = .fault .dropPastEnd)) ∧
    (∀ t p, ((Instr.frameNoTarget t p).wellFormed = false →
        exec (.frameNoTarget t p) s = .refused (.outsideClass "FRAME_NO_TARGET")) ∧
      ((Instr.frameNoTarget t p).wellFormed = true → s.window.length < 9 + p.length →
        exec (.frameNoTarget t p) s = .fault .dropPastEnd)) ∧
    (∀ t p, ((Instr.frameInsufficient t p).wellFormed = false →
        exec (.frameInsufficient t p) s = .refused (.outsideClass "FRAME_INSUFFICIENT")) ∧
      ((Instr.frameInsufficient t p).wellFormed = true → s.window.length < 9 + p.length →
        exec (.frameInsufficient t p) s = .fault .dropPastEnd)) ∧
    (∀ h0 h1 h2 h3, ((Instr.rejHeaderMismatch h0 h1 h2 h3).wellFormed = false →
        exec (.rejHeaderMismatch h0 h1 h2 h3) s = .refused (.outsideClass "REJ_HEADER_MISMATCH")) ∧
      ((Instr.rejHeaderMismatch h0 h1 h2 h3).wellFormed = true → s.window = [] →
        exec (.rejHeaderMismatch h0 h1 h2 h3) s = .fault .dropPastEnd)) ∧
    (∀ t l, ((Instr.rejOversizedPayloadField t l).wellFormed = false →
        exec (.rejOversizedPayloadField t l) s = .refused (.outsideClass "REJ_OVERSIZED_PAYLOAD_FIELD")) ∧
      ((Instr.rejOversizedPayloadField t l).wellFormed = true → s.window = [] →
        exec (.rejOversizedPayloadField t l) s = .fault .dropPastEnd)) ∧
    (∀ t p x, ((Instr.rejChecksumMismatch t p x).wellFormed = false →
        exec (.rejChecksumMismatch t p x) s = .refused (.outsideClass "REJ_CHECKSUM_MISMATCH")) ∧
      ((Instr.rejChecksumMismatch t p x).wellFormed = true → s.window = [] →
        exec (.rejChecksumMismatch t p x) s = .fault .dropPastEnd)) ∧
    (∀ n, ((Instr.rejTooShort n).wellFormed = false →
        exec (.rejTooShort n) s = .refused (.outsideClass "REJ_TOO_SHORT")) ∧
      ((Instr.rejTooShort n).wellFormed = true → s.window = [] → exec (.rejTooShort n) s = .fault .dropPastEnd)) ∧
    ∀ t l, (Instr.rejFrameTooLarge t l).wellFormed = false →
      exec (.rejFrameTooLarge t l) s = .refused (.outsideClass "REJ_FRAME_TOO_LARGE")

/-- What a frame or reject row leaves alone, and which bytes are left (rules R64, R77, R78, R96; that
a row runs by itself, and the rest of the loop with it, is the model's choice, log 5). -/
def Obligations.RowFrame : Prop :=
  ∀ (s t : State) (i : Instr),
    i ≠ .reset → i ≠ .init → i ≠ .rxTick → i ≠ .lmTick → i ≠ .diag → i ≠ .startCmd → (∀ b, i ≠ .byte b) →
    exec i s = .next t →
    t.started = s.started ∧ t.rxq = s.rxq ∧ t.now = s.now ∧ t.txq = s.txq ∧ t.line = s.line ∧ t.diagLog = s.diagLog ∧
    t.port = s.port ∧ (s.mode ≠ .fresh → t.mode = s.mode) ∧
    (s.mode ≠ .system → t.lastActivity = s.lastActivity ∧ t.lastPublished = s.lastPublished ∧ t.published = s.published ∧
      t.draws = s.draws) ∧
    stable t.window = true ∧
    (∀ a, a < t.len → Memory.read t.buf a = s.window[a + (s.len - t.len)]?) ∧
    (∀ a, t.len ≤ a → Memory.read t.buf a = none)

/-! ### Streams of bytes -/

/-- A valid frame fed byte by byte into an empty buffer gives no event before its last byte and then exactly one, and leaves the
buffer empty, for every type byte and payload (rules R46, R52, R53, R68, R77, R95). -/
def Obligations.ValidFrameDecodes : Prop :=
  ∀ (t : Byte) (p : List Byte), p.length ≤ 32 →
    feedBlock (frameBytes t p).dropLast [] = .ok ((frameBytes t p).dropLast, []) ∧
    (p.length ≤ 13 → feedBlock (frameBytes t p) [] = .ok ([], [.frameInsufficient])) ∧
    (14 ≤ p.length → ∀ lo hi, p[6]? = some lo → p[7]? = some hi →
      feedBlock (frameBytes t p) [] =
        .ok ([], [if lo = 0xFF ∧ hi = 0xFF then .frameNoTarget else .frameDistance (u16le lo hi)]))

/-- One corrupted byte before a valid frame costs exactly one header mismatch, and the frame is decoded (rule R83). -/
def Obligations.OneGarbageByteRecovers : Prop :=
  ∀ (g t : Byte) (p : List Byte), p.length ≤ 32 →
    ∃ ev, feedBlock (frameBytes t p) [] = .ok ([], [ev]) ∧
      feedBlock (g :: frameBytes t p) [] = .ok ([], [.headerMismatch g, ev])

/-- How a stream is cut into pieces changes neither its events nor the window it leaves, where no read answers `None` (rule R82;
log 7). BYTE's events and window are the block's first and the rest follows from its window; two RX_TICKs, the second's bytes
arriving between them, do what one pass over all the bytes does; a single RX_TICK over the same bytes does it too; and two
RX_TICKs on one queue do what one pass over its first 64 bytes does. -/
def Obligations.BatchingIrrelevant : Prop :=
  (∀ (s : State) (b : Byte) (bs : List Byte), ∃ t buf evs evs1 evs2, exec (.byte b) s = .next t ∧
    feedBlock (b :: bs) s.window = .ok (buf, evs) ∧ t.trace = s.trace ++ evs1 ∧
    feedBlock bs t.window = .ok (buf, evs2) ∧ evs = evs1 ++ evs2) ∧
  (∀ (hyst : HystTest) (s : State) (xs ys : List Byte), s.mode = .system → xs.length ≤ 32 → ys.length ≤ 32 →
    ∃ t u buf evs, rxTickWith (fun _ => false) hyst { s with rxq := xs } = .next t ∧
      rxTickWith (fun _ => false) hyst { t with rxq := ys } = .next u ∧
      feedBlock (xs ++ ys) s.window = .ok (buf, evs) ∧ u.window = buf ∧ u.trace = s.trace ++ evs ∧ u.rxq = [] ∧
      ((xs ++ ys).length ≤ 32 → ∃ v, rxTickWith (fun _ => false) hyst { s with rxq := xs ++ ys } = .next v ∧
        v.window = u.window ∧ v.trace = u.trace ∧ v.rxq = u.rxq)) ∧
  ∀ (hyst : HystTest) (s : State), s.mode = .system →
    ∃ t u buf evs, rxTickWith (fun _ => false) hyst s = .next t ∧ rxTickWith (fun _ => false) hyst t = .next u ∧
      feedBlock (s.rxq.take 64) s.window = .ok (buf, evs) ∧ u.window = buf ∧ u.trace = s.trace ++ evs ∧
      u.rxq = s.rxq.drop 64

/-- Changing one byte of the bytes the checksum covers makes a passing frame fail (rules R58, R60, R61; the CRC's
bit loop is log 16). -/
def Obligations.OneByteErrorDetected : Prop :=
  ∀ (front back : List Byte) (b b' : Byte) (x : Half), b ≠ b' →
    crcOk (front ++ b :: back ++ be16 x) = true → crcOk (front ++ b' :: back ++ be16 x) = false

/-- The stimulus `MEAS mm` is a frame that decodes to `mm`, and for 65535 to "no target" (rule R57). -/
def Obligations.MeasDecodes : Prop :=
  ∀ (mm : Nat) (t : Byte), mm ≤ 65535 → ∃ bs, measStimulus mm t = some bs ∧ bs.length = 23 ∧
    feedBlock bs [] = .ok ([], [if mm = 65535 then .frameNoTarget else .frameDistance (BitVec.ofNat 16 mm)])

/-- The phase of a stable window is Hunting with fewer than 7 bytes, or LengthKnown; and a window of such a phase is stable
(rules R21, R79). -/
def Obligations.StablePhases : Prop :=
  ∀ buf : List Byte, stable buf = true ↔ (phase buf = .hunting ∧ buf.length < 7) ∨ phase buf = .lengthKnown

/-! ### RESET and INIT -/

/-- The state after reset (rule R28; the fields for which the spec gives no value are the model's own, log 12): an empty buffer
in which no index has a value, link not started, nothing published. -/
def Obligations.ResetState : Prop :=
  State.reset.len = 0 ∧ (∀ a, Memory.read State.reset.buf a = none) ∧ State.reset.started = false ∧
  State.reset.lastActivity = 0 ∧ State.reset.lastPublished = .unset

/-- RESET empties the buffer, disarms the link, forgets the publication; the transport, the trace and the outputs are kept and
nothing is sent; the window it leaves is stable, and in a system run the next LM_TICK sends, whatever the clock (rule R125;
that RESET also completes as the first operation of a run is the model's reading, log 3). -/
def Obligations.ResetResult : Prop :=
  ∀ s : State, ∃ t, exec .reset s = .next t ∧
    t.len = 0 ∧ (∀ a, Memory.read t.buf a = none) ∧ t.started = false ∧ t.lastActivity = 0 ∧ t.lastPublished = .unset ∧
    t.rxq = s.rxq ∧ t.now = s.now ∧ t.txq = s.txq ∧ t.line = s.line ∧ t.trace = s.trace ∧ t.published = s.published ∧
    t.diagLog = s.diagLog ∧ t.port = s.port ∧ t.draws = s.draws ∧ (s.mode ≠ .fresh → t.mode = s.mode) ∧
    stable t.window = true ∧
    (s.mode = .system → ∀ n, exec .lmTick { t with now := n } = .next
      { t with now := n, line := t.line ++ (t.txq ++ START_CMD), txq := [], started := true, lastActivity := n })

/-- RESET twice is RESET once, and it is never refused (rule R126, in a run that has begun or begins with it; log 3). -/
def Obligations.ResetIdempotent : Prop :=
  ∀ s : State, ∃ t, exec .reset s = .next t ∧ exec .reset t = .next t

/-- INIT as the first operation creates the state and sends the start command; later it is refused, and the environment's
operations are refused in a run it did not begin (rule R101; the mode is the model's own, log 3). -/
def Obligations.InitFirstOnce : Prop :=
  ∀ s : State,
    (s.mode = .fresh → exec .init s = .next
      { s with buf := [], started := true, lastActivity := s.now, lastPublished := .unset, mode := .system,
               line := s.line ++ (s.txq ++ START_CMD), txq := [] }) ∧
    (s.mode ≠ .fresh → exec .init s = .refused .initNotFirst) ∧
    (s.mode ≠ .system → exec .rxTick s = .refused (.beforeInit "RX_TICK") ∧
      exec .lmTick s = .refused (.beforeInit "LM_TICK") ∧ exec .diag s = .refused (.beforeInit "DIAG") ∧
      exec .startCmd s = .refused (.beforeInit "START_CMD"))

/-! ### The environment -/

/-- SEND_START transmits the nine bytes after what was queued, marks the link started and takes the clock (rules R49, R102; logs 6, 20). -/
def Obligations.SendStartResult : Prop :=
  ∀ s : State, s.mode = .system → exec .startCmd s = .next
    { s with line := s.line ++ (s.txq ++ [0xA5, 0x03, 0x20, 0x01, 0x00, 0x00, 0x00, 0x02, 0x6E]), txq := [],
             started := true, lastActivity := s.now }

/-- LM_TICK sends if nothing was ever sent; else it reports a timeout and resends if strictly more than 10000 ms went by; else
it does nothing. For every width of the clock (rules R98, R103; log 11). -/
def Obligations.LmTickResult : Prop :=
  (∀ s : State, s.mode = .system →
    (s.started = false → exec .lmTick s = .next
      { s with line := s.line ++ (s.txq ++ START_CMD), txq := [], started := true, lastActivity := s.now }) ∧
    (s.started = true → 10000 < elapsed Config.clockBits s.now s.lastActivity → exec .lmTick s = .next
      { s with trace := s.trace ++ [.linkTimeout], line := s.line ++ (s.txq ++ START_CMD), txq := [], started := true,
               lastActivity := s.now }) ∧
    (s.started = true → elapsed Config.clockBits s.now s.lastActivity ≤ 10000 → exec .lmTick s = .next s)) ∧
  ∀ now last : Nat, elapsed none now last = now - last ∧ ∀ k, elapsed (some k) now last = (now - last) % 2 ^ k

/-- On the unbounded clock a timeout is followed by no other for 10000 ms, and by one after (rule R103; log 11). -/
def Obligations.OneTimeoutPerInterval : Prop :=
  ∀ (s : State) (n : Nat), s.mode = .system → s.started = true → 10000 < s.now - s.lastActivity → s.now ≤ n →
    ∃ t, lmTickWith none s = .next t ∧ t.trace = s.trace ++ [.linkTimeout] ∧
      (n ≤ s.now + 10000 → lmTickWith none { t with now := n } = .next { t with now := n }) ∧
      (s.now + 10000 < n → ∃ u, lmTickWith none { t with now := n } = .next u ∧ u.trace = t.trace ++ [.linkTimeout])

/-- DIAG returns its record and changes no state (rule R109; 0.01 m is held as 10 mm, log 9). -/
def Obligations.DiagResult : Prop :=
  ∀ s : State, s.mode = .system → exec .diag s = .next
    { s with diagLog := s.diagLog ++ [⟨64, s.started, 10000, ⟨10⟩⟩] }

/-- RX_TICK feeds the block the first bytes of the queue, at most 32, in order, and removes exactly those; it stops early only
where the queue is empty or a read of this tick answered `None`; activity is refreshed exactly if a frame was decoded; without
one nothing is published. It completes in every state of a system run. It is the byte drain with 32 reads; and one read of the
drain takes the byte from the queue, runs BYTE on it and delivers each of its events, in order, before the next read
(rules R99, R100, R104 to R106, R114; log 7). -/
def Obligations.RxTickResult : Prop :=
  (∀ s : State, s.mode = .system → ∃ j evs t, j ≤ 32 ∧ exec .rxTick s = .next t ∧
    feedBlock (s.rxq.take j) s.window = .ok (t.window, evs) ∧ t.rxq = s.rxq.drop j ∧ t.trace = s.trace ++ evs ∧
    (j < 32 → j < s.rxq.length → ∃ n, s.draws ≤ n ∧ n < t.draws ∧ Config.readNone n = true) ∧
    (evs.any isSuccess = true → t.lastActivity = s.now) ∧
    (evs.any isSuccess = false → t.lastActivity = s.lastActivity ∧ t.published = s.published ∧
      t.lastPublished = s.lastPublished)) ∧
  (∀ s : State, s.mode = .system → exec .rxTick s = drainWith Config.readNone Config.hyst 32 s) ∧
  ∀ (readNone : Nat → Bool) (hyst : HystTest) (k : Nat) (s : State), s.mode = .system →
    drainWith readNone hyst 0 s = .next s ∧
    (s.rxq = [] → drainWith readNone hyst (k + 1) s = .next s) ∧
    ∀ b rest, s.rxq = b :: rest →
      (readNone s.draws = true → drainWith readNone hyst (k + 1) s = .next { s with draws := s.draws + 1 }) ∧
      (readNone s.draws = false → ∃ buf evs, byteBlock b s.window = .ok (buf, evs) ∧
        drainWith readNone hyst (k + 1) s = drainWith readNone hyst k
          (evs.foldl (fun u e => deliver hyst e u)
            { s with buf := Memory.ofBytes buf, rxq := rest, trace := s.trace ++ evs, draws := s.draws + 1 }))

/-- Where no read answers `None`, RX_TICK consumes 32 bytes, or all there are (rules R99, R137; log 7). -/
def Obligations.RxTickConsumes : Prop :=
  ∀ (hyst : HystTest) (s : State), s.mode = .system → ∃ t evs,
    rxTickWith (fun _ => false) hyst s = .next t ∧ t.rxq = s.rxq.drop 32 ∧
    feedBlock (s.rxq.take 32) s.window = .ok (t.window, evs) ∧ t.trace = s.trace ++ evs

/-- What RX_TICK leaves alone; with an empty queue it changes nothing at all (rules R99, R132). -/
def Obligations.RxTickFrame : Prop :=
  ∀ s t : State, exec .rxTick s = .next t →
    t.started = s.started ∧ t.now = s.now ∧ t.txq = s.txq ∧ t.line = s.line ∧ t.diagLog = s.diagLog ∧ t.mode = s.mode ∧
    t.port = s.port ∧ (s.rxq = [] → t = s)

/-- What LM_TICK, DIAG and the start command leave alone: every byte of the buffer, the queue, the clock, what was published
(rules R102, R103, R109). -/
def Obligations.EnvironmentFrame : Prop :=
  ∀ (s t : State) (i : Instr), i = .lmTick ∨ i = .diag ∨ i = .startCmd → exec i s = .next t →
    (∀ a, Memory.read t.buf a = Memory.read s.buf a) ∧ t.buf = s.buf ∧ t.rxq = s.rxq ∧ t.now = s.now ∧
    t.lastPublished = s.lastPublished ∧ t.published = s.published ∧ t.mode = s.mode ∧ t.port = s.port ∧ t.draws = s.draws ∧
    (i ≠ .diag → t.diagLog = s.diagLog) ∧
    (i = .diag → t.started = s.started ∧ t.lastActivity = s.lastActivity ∧ t.line = s.line ∧ t.txq = s.txq) ∧
    (i ≠ .lmTick → t.trace = s.trace)

/-! ### Delivery and publication -/

/-- Every success event refreshes the link's activity, started or not; no error event does (rule R100). -/
def Obligations.ActivityRefreshed : Prop :=
  ∀ (hyst : HystTest) (e : Event) (s : State),
    (isSuccess e = true → (deliver hyst e s).lastActivity = s.now) ∧
    (isSuccess e = false → (deliver hyst e s).lastActivity = s.lastActivity) ∧
    ∀ d, isSuccess (.frameDistance d) = true ∧ isSuccess .frameNoTarget = true ∧ isSuccess .frameInsufficient = true

/-- "No target" publishes NaN unless it was the last published value (rule R104). -/
def Obligations.NoTargetPublishes : Prop :=
  ∀ (hyst : HystTest) (s : State),
    (s.lastPublished ≠ .noTarget → deliver hyst .frameNoTarget s =
      { s with lastActivity := s.now, published := s.published ++ [.nan], lastPublished := .noTarget }) ∧
    (s.lastPublished = .noTarget → deliver hyst .frameNoTarget s = { s with lastActivity := s.now })

/-- A distance publishes from Unset and from NoTarget; from a published distance, in binary32 and binary64, it publishes for a
change of 11 mm or more and not for 9 mm or less; at exactly 10 mm, and for every change in another format, the open answer
decides, with a fresh draw (rules R105, R107; logs 8, 9). -/
def Obligations.DistancePublishes : Prop :=
  ∀ (hyst : HystTest) (d : Half) (s : State),
    (s.lastPublished = .unset ∨ s.lastPublished = .noTarget → deliver hyst (.frameDistance d) s =
      { s with lastActivity := s.now, published := s.published ++ [.metres ⟨d.toNat⟩],
               lastPublished := .distance ⟨d.toNat⟩ }) ∧
    ∀ p, s.lastPublished = .distance p →
      (hyst.fmt = .binary32 ∨ hyst.fmt = .binary64 →
        (p.mm + 11 ≤ d.toNat ∨ d.toNat + 11 ≤ p.mm → deliver hyst (.frameDistance d) s =
          { s with lastActivity := s.now, published := s.published ++ [.metres ⟨d.toNat⟩],
                   lastPublished := .distance ⟨d.toNat⟩ }) ∧
        (p.mm ≤ d.toNat + 9 ∧ d.toNat ≤ p.mm + 9 →
          deliver hyst (.frameDistance d) s = { s with lastActivity := s.now }) ∧
        (p.mm = d.toNat + 10 ∨ d.toNat = p.mm + 10 → deliver hyst (.frameDistance d) s =
          if hyst.eq10 s.draws p.mm d.toNat then
            { s with lastActivity := s.now, published := s.published ++ [.metres ⟨d.toNat⟩],
                     lastPublished := .distance ⟨d.toNat⟩, draws := s.draws + 1 }
          else { s with lastActivity := s.now, draws := s.draws + 1 })) ∧
      ∀ k, hyst.fmt = .other k → deliver hyst (.frameDistance d) s =
        if hyst.other s.draws p.mm d.toNat then
          { s with lastActivity := s.now, published := s.published ++ [.metres ⟨d.toNat⟩],
                   lastPublished := .distance ⟨d.toNat⟩, draws := s.draws + 1 }
        else { s with lastActivity := s.now, draws := s.draws + 1 }

/-- A distance of 0 mm is decoded as a distance, and from Unset and from NoTarget it is published: the consumer sees 0.0, whatever
the float format (rule R93). -/
def Obligations.ZeroPublishedAsZero : Prop :=
  (∀ (t : Byte) (p : List Byte), 14 ≤ p.length → p.length ≤ 32 → p[6]? = some 0x00 → p[7]? = some 0x00 →
    decodeFrame (frameBytes t p) = some (.ok (.distance 0))) ∧
  (∀ (hyst : HystTest) (s : State), s.lastPublished = .unset ∨ s.lastPublished = .noTarget →
    (deliver hyst (.frameDistance 0) s).consumerSaw = s.consumerSaw ++ [some ⟨0, 1⟩]) ∧
  ∀ fmt : FloatFmt, publishedFloat fmt (.metres ⟨0⟩) = some ⟨0, 1⟩

/-- "Insufficient" publishes nothing and changes nothing but the activity; an error event changes nothing (rule R106). -/
def Obligations.InsufficientPublishesNothing : Prop :=
  ∀ (hyst : HystTest) (s : State),
    deliver hyst .frameInsufficient s = { s with lastActivity := s.now } ∧
    ∀ e, isSuccess e = false → deliver hyst e s = s

/-- The hysteresis test evaluated on floats, in binary32 and in binary64, agrees with the millimetre bounds: below 10 mm never,
above 10 mm always, for every two distances (rule R107; the rounding is log 17). -/
def Obligations.FloatHysteresisAgrees : Prop :=
  ∀ (fmt : FloatFmt) (d0 d1 : Nat), fmt = .binary32 ∨ fmt = .binary64 → d0 ≤ 65534 → d1 ≤ 65534 →
    (changeMm d0 d1 ≤ 9 → hysteresisOnFloats fmt d0 d1 = some false) ∧
    (11 ≤ changeMm d0 d1 → hysteresisOnFloats fmt d0 d1 = some true)

/-! ### The whole machine -/

/-- The invariant holds at reset (rule R79 (a) and rule R28; that nothing is left to transmit and that the queue is
empty at reset are the model's choice, log 12). -/
def Obligations.InvAtReset : Prop := State.reset.Inv

/-- Every step keeps the invariant, from every state that has it (rules R11, R17, R26, R79, R98, R101, R113; a byte
that finds the queue full is lost, log 23). -/
def Obligations.StepKeepsInv : Prop :=
  ∀ s t : State, s.Inv → step s = .next t → t.Inv

/-- No operation faults, in any state: every error recovers in place (rules R111, R130). -/
def Obligations.OperationsNeverFault : Prop :=
  ∀ (s : State) (b : Byte) (f : Fault),
    exec (.byte b) s ≠ .fault f ∧ exec .reset s ≠ .fault f ∧ exec .init s ≠ .fault f ∧ exec .rxTick s ≠ .fault f ∧
    exec .lmTick s ≠ .fault f ∧ exec .diag s ≠ .fault f ∧ exec .startCmd s ≠ .fault f

/-- No operation reads the trace, and none shortens it: the same operation on a state with another trace does the same and adds
the same events (rule R27). -/
def Obligations.TraceNeverRead : Prop :=
  ∀ (i : Instr) (s : State) (tr : List Event),
    (∀ t, exec i s = .next t → ∃ evs, t.trace = s.trace ++ evs ∧
      exec i { s with trace := tr } = .next { t with trace := tr ++ evs }) ∧
    (∀ f, exec i s = .fault f → exec i { s with trace := tr } = .fault f) ∧
    ∀ r, exec i s = .refused r → exec i { s with trace := tr } = .refused r

/-- The transport's clock and what is presented next are no operation's to write, the queue only RX_TICK's, and bytes leave it
from the front only (rules R98, R99, R110, R120). -/
def Obligations.TransportUntouched : Prop :=
  ∀ (i : Instr) (s t : State), exec i s = .next t →
    t.now = s.now ∧ t.port = s.port ∧ (i ≠ .rxTick → t.rxq = s.rxq) ∧ ∃ k, t.rxq = s.rxq.drop k

/-- Only INIT, LM_TICK and the start command transmit or start the link; the byte-processing path never does (rules R24, R102,
R132). -/
def Obligations.OnlySendsTransmit : Prop :=
  ∀ (i : Instr) (s t : State), exec i s = .next t → i ≠ .init → i ≠ .lmTick → i ≠ .startCmd →
    t.line = s.line ∧ t.txq = s.txq ∧ (t.started = true → s.started = true)

/-- The consumer only ever receives NaN or a distance of 0 to 65534 mm, added behind what it received before, and receives
nothing from an operation that decodes no frame (rules R93, R108, R114). -/
def Obligations.ConsumerSees : Prop :=
  ∀ (i : Instr) (s t : State), exec i s = .next t →
    ∃ vs evs, t.published = s.published ++ vs ∧ t.trace = s.trace ++ evs ∧
      (∀ v ∈ vs, v = .nan ∨ ∃ d, d ≤ 65534 ∧ v = .metres ⟨d⟩) ∧ (evs.any isSuccess = false → vs = [])
end

