-- ==== Sys2Proof/Laws/Operands.lean ====
section
/-! SUPPORT. Byte order and frame layout: the small lemmas of Machine/Operands.lean, and what DECODE answers on a candidate
frame given by its fields (rules R46, R50, R86). -/

namespace Sys2Proof

/-- The bits of a 16-bit value assembled from two bytes (rule R12). -/
theorem getLsbD_u16be (h l : Byte) (i : Nat) :
    (u16be h l).getLsbD i = if i < 8 then l.getLsbD i else h.getLsbD (i - 8) := by
  have e := BitVec.getLsbD_append (x := h) (y := l) (i := i)
  rw [show (u16be h l).getLsbD i = (h ++ l).getLsbD i from rfl, e]

@[simp] theorem hiByte_u16be (h l : Byte) : hiByte (u16be h l) = h := by
  apply BitVec.eq_of_getLsbD_eq
  intro i hi
  rw [hiByte, BitVec.getLsbD_extractLsb', getLsbD_u16be, if_neg (by omega)]
  simp [hi]

@[simp] theorem loByte_u16be (h l : Byte) : loByte (u16be h l) = l := by
  apply BitVec.eq_of_getLsbD_eq
  intro i hi
  rw [loByte, BitVec.getLsbD_extractLsb', getLsbD_u16be, if_pos (by omega)]
  simp [hi]

@[simp] theorem u16be_hi_lo (v : Half) : u16be (hiByte v) (loByte v) = v := by
  apply BitVec.eq_of_getLsbD_eq
  intro i hi
  rw [getLsbD_u16be, hiByte, loByte, BitVec.getLsbD_extractLsb', BitVec.getLsbD_extractLsb']
  split
  · next h => simp [h]
  · next h => simp [show 8 + (i - 8) = i by omega, show i - 8 < 8 by omega]

@[simp] theorem be16_u16be (h l : Byte) : be16 (u16be h l) = [h, l] := by simp [be16]

@[simp] theorem length_be16 (v : Half) : (be16 v).length = 2 := rfl

@[simp] theorem length_HDR : HDR.length = 4 := rfl

@[simp] theorem length_frameSpan (t : Byte) (p : List Byte) : (frameSpan t p).length = 7 + p.length := by
  simp [frameSpan]; omega

@[simp] theorem length_frameBytes (t : Byte) (p : List Byte) : (frameBytes t p).length = 9 + p.length := by
  simp [frameBytes]; omega

/-- A payload length below 2^16 is its own 16-bit value. -/
theorem toNat_length {p : List Byte} (h : p.length < 65536) : (BitVec.ofNat 16 p.length).toNat = p.length := by
  simp [Nat.mod_eq_of_lt h]

/-- The first seven bytes of a frame, one by one. -/
theorem frameSpan_eq_cons (t : Byte) (p : List Byte) :
    frameSpan t p = 0xA5 :: 0x03 :: 0x20 :: 0x01 :: t :: hiByte (BitVec.ofNat 16 p.length) ::
      loByte (BitVec.ofNat 16 p.length) :: p := rfl

@[simp] theorem lengthField_frameSpan_append (t : Byte) (p rest : List Byte) :
    lengthField (frameSpan t p ++ rest) = some (BitVec.ofNat 16 p.length) := by
  simp [frameSpan_eq_cons, lengthField]

/-- The received checksum of a span followed by two bytes is those two bytes (rule R61). -/
@[simp] theorem receivedCrc_append_be16 (s : List Byte) (x : Half) : receivedCrc (s ++ be16 x) = some x := by
  simp [receivedCrc, be16]

/-- The checksum covers all but the last two bytes (rule R60). -/
@[simp] theorem crcSpan_append_be16 (s : List Byte) (x : Half) : crcSpan (s ++ be16 x) = s := by
  simp [crcSpan]

/-- Bytes after the payload do not change the distance of a frame of at least 14 payload bytes (rule R91). -/
theorem distanceField_append (t : Byte) (p rest : List Byte) (h : DIST_MIN_PAYLOAD ≤ p.length) :
    distanceField (frameSpan t p ++ rest) = distanceField (frameSpan t p) := by
  have hl : 20 < (frameSpan t p).length := by simp [DIST_MIN_PAYLOAD] at *; omega
  unfold distanceField DIST_LO DIST_HI
  rw [List.getElem?_append_left (by omega), List.getElem?_append_left (by omega)]

/-- A frame of at least 14 payload bytes has a distance field (rule R91). -/
theorem distanceField_isSome (t : Byte) (p : List Byte) (h : DIST_MIN_PAYLOAD ≤ p.length) :
    ∃ d, distanceField (frameSpan t p) = some d := by
  have hl : 20 < (frameSpan t p).length := by simp [DIST_MIN_PAYLOAD] at *; omega
  refine ⟨u16le ((frameSpan t p)[13]'(by omega)) ((frameSpan t p)[14]'(by omega)), ?_⟩
  simp [distanceField, DIST_LO, DIST_HI, List.getElem?_eq_getElem (show 13 < (frameSpan t p).length by omega),
    List.getElem?_eq_getElem (show 14 < (frameSpan t p).length by omega)]

/-- What DECODE answers on the candidate frame with these fields, by the table of rule R95. -/
def candidateResult (t : Byte) (p : List Byte) (x : Half) : Except DecodeError Measurement :=
  if crc16 (frameSpan t p) ≠ x then .error (.checksumMismatch (crc16 (frameSpan t p)) x)
  else if p.length < DIST_MIN_PAYLOAD then .ok .insufficient
  else match distanceField (frameSpan t p) with
  | some d => if d = NO_TARGET then .ok .noTarget else .ok (.distance d)
  | none => .ok .insufficient

/-- DECODE on a candidate frame given by its fields (rules R86 and R95). -/
theorem decodeFrame_candidate (t : Byte) (p : List Byte) (x : Half) (hp : p.length < 65536) :
    decodeFrame (frameSpan t p ++ be16 x) = some (candidateResult t p x) := by
  have hlen : ¬ (frameSpan t p ++ be16 x).length < MIN_FRAME := by simp [MIN_FRAME]
  unfold decodeFrame candidateResult
  rw [if_neg hlen]
  by_cases hc : crc16 (frameSpan t p) = x
  · by_cases h14 : p.length < DIST_MIN_PAYLOAD
    · simp [hc, h14, Nat.mod_eq_of_lt hp]
    · obtain ⟨d, hd⟩ := distanceField_isSome t p (Nat.le_of_not_lt h14)
      rw [← distanceField_append t p (be16 x) (Nat.le_of_not_lt h14)] at hd
      have hd' := hd
      rw [distanceField_append t p (be16 x) (Nat.le_of_not_lt h14)] at hd'
      by_cases hn : d = NO_TARGET <;> simp [hc, h14, Nat.mod_eq_of_lt hp, hd, hd', hn]
  · simp [hc]

end Sys2Proof
end

