-- ==== Sys2Proof/Laws/Front.lean ====
section
/-! SUPPORT. What stands at a buffer front, said once (rules R68 and R115): the front is short, or its header or length is
rejected, or it waits for its frame, or it is a candidate frame. Every later lemma about the loop splits by these cases. -/

namespace Sys2Proof.Machine

/-- The cases of the buffer front, in the order rule R115 tests them. -/
inductive FrontCase : List Byte → Except Reject Instr → Prop where
  | short {buf} (h : buf.length < 7) : FrontCase buf (.error .hunting)
  | header {h0 h1 h2 h3 rest} (hne : [h0, h1, h2, h3] ≠ HDR) (hl : 3 ≤ rest.length) :
      FrontCase (h0 :: h1 :: h2 :: h3 :: rest) (.ok (.rejHeaderMismatch h0 h1 h2 h3))
  | oversized {t l rest} (h : MAX_PAYLOAD < l.toNat) :
      FrontCase (HDR ++ t :: be16 l ++ rest) (.ok (.rejOversizedPayloadField t l))
  | waits {t l rest} (h : l.toNat ≤ MAX_PAYLOAD) (hl : rest.length < l.toNat + 2) :
      FrontCase (HDR ++ t :: be16 l ++ rest) (.error .lengthKnown)
  | candidate {t p x rest} (h : p.length ≤ MAX_PAYLOAD) :
      FrontCase (frameSpan t p ++ be16 x ++ rest) (.ok (rowOfResult t p (candidateResult t p x)))

/-- Every list of `n + 2` bytes or more is `n` bytes, a 16-bit value and the rest. -/
theorem split_candidate {rest : List Byte} {n : Nat} (h : n + 2 ≤ rest.length) :
    ∃ p x r, p.length = n ∧ rest = p ++ be16 x ++ r := by
  have h2 : 2 ≤ (rest.drop n).length := by simp; omega
  match hd : rest.drop n, h2 with
  | a :: b :: r, _ =>
    refine ⟨rest.take n, u16be a b, r, by simp; omega, ?_⟩
    rw [be16_u16be, List.append_assoc]
    conv_lhs => rw [← List.take_append_drop n rest, hd]
    rfl

/-- A candidate frame at the front is decoded by its own bytes alone (rules R68 and R76). -/
theorem decodeFront_candidate (t : Byte) (p : List Byte) (x : Half) (rest : List Byte) (h : p.length ≤ MAX_PAYLOAD) :
    decodeFront (frameSpan t p ++ be16 x ++ rest) = .ok (rowOfResult t p (candidateResult t p x)) := by
  have hp : p.length < 65536 := by simp [MAX_PAYLOAD] at h; omega
  have hL : (u16be (hiByte (BitVec.ofNat 16 p.length)) (loByte (BitVec.ofNat 16 p.length))).toNat = p.length := by
    rw [u16be_hi_lo, toNat_length hp]
  have hT : totalLength (u16be (hiByte (BitVec.ofNat 16 p.length)) (loByte (BitVec.ofNat 16 p.length)))
      = (frameSpan t p ++ be16 x).length := by
    simp [totalLength, Nat.mod_eq_of_lt hp]
    try omega
  have htake : (frameSpan t p ++ be16 x ++ rest).take (frameSpan t p ++ be16 x).length = frameSpan t p ++ be16 x :=
    List.take_left
  have hcap : (frameSpan t p ++ be16 x).length ≤ CAP := by simp [CAP, MAX_PAYLOAD] at *; omega
  have hlen : (frameSpan t p ++ be16 x).length ≤ (frameSpan t p ++ be16 x ++ rest).length := by simp
  have h7 : ¬ (frameSpan t p ++ be16 x ++ rest).length < MIN_HDRLEN := by simp [MIN_HDRLEN]; omega
  have hcons : frameSpan t p ++ be16 x ++ rest = 0xA5 :: 0x03 :: 0x20 :: 0x01 :: t ::
      hiByte (BitVec.ofNat 16 p.length) :: loByte (BitVec.ofNat 16 p.length) :: (p ++ be16 x ++ rest) := by
    simp [frameSpan_eq_cons]
  unfold decodeFront classifyFront
  rw [if_neg h7]
  generalize hg : frameSpan t p ++ be16 x ++ rest = buf at *
  subst hcons
  simp only []
  rw [if_neg (by simp [HDR]), hL, if_neg (by omega), hT, if_neg (by omega), if_neg (by omega), htake,
    decodeFrame_candidate t p x hp]
  simp

/-- The decoder answers by the case of the front. -/
theorem decodeFront_of_case {buf : List Byte} {r : Except Reject Instr} (h : FrontCase buf r) : decodeFront buf = r := by
  cases h with
  | short h => simp [decodeFront, classifyFront, MIN_HDRLEN, h]
  | @header h0 h1 h2 h3 rest hne hl =>
    match rest, hl with
    | a :: b :: c :: rest, _ => simp only [decodeFront, classifyFront]; rw [if_neg (by simp [MIN_HDRLEN])]; simp [hne]
  | @oversized t l rest h =>
    simp only [decodeFront, classifyFront]
    rw [if_neg (by simp [MIN_HDRLEN, HDR, be16])]
    simp [HDR, be16, h]
  | @waits t l rest h hl =>
    have hc : ¬ CAP < totalLength l := by simp [CAP, MAX_PAYLOAD, totalLength] at *; omega
    simp only [decodeFront, classifyFront]
    rw [if_neg (by simp [MIN_HDRLEN, HDR, be16])]
    simp [HDR, be16, Nat.not_lt.2 h, hc]
    simp [totalLength]; omega
  | candidate h => exact decodeFront_candidate _ _ _ _ h

/-- Every buffer is in one of the cases. -/
theorem frontCase_exists (buf : List Byte) : ∃ r, FrontCase buf r := by
  by_cases hs : buf.length < 7
  · exact ⟨_, .short hs⟩
  match buf, Nat.le_of_not_lt hs with
  | h0 :: h1 :: h2 :: h3 :: t :: lh :: ll :: rest, _ =>
    by_cases hne : [h0, h1, h2, h3] = HDR
    · have hb : h0 :: h1 :: h2 :: h3 :: t :: lh :: ll :: rest = HDR ++ t :: be16 (u16be lh ll) ++ rest := by
        rw [← hne, be16_u16be]; rfl
      rw [hb]
      by_cases ho : MAX_PAYLOAD < (u16be lh ll).toNat
      · exact ⟨_, .oversized ho⟩
      · by_cases hw : rest.length < (u16be lh ll).toNat + 2
        · exact ⟨_, .waits (by omega) hw⟩
        · obtain ⟨p, x, r, hp, hr⟩ := split_candidate (rest := rest) (n := (u16be lh ll).toNat) (by omega)
          have : HDR ++ t :: be16 (u16be lh ll) ++ rest = frameSpan t p ++ be16 x ++ r := by
            rw [frameSpan, hp, BitVec.ofNat_toNat, hr]
            simp
          rw [this]
          exact ⟨_, .candidate (by omega)⟩
    · exact ⟨_, .header hne (by simp)⟩

/-- What the decoder answered says which case the front is in: the inversion of rules R68 and R115. -/
theorem frontCase (buf : List Byte) : FrontCase buf (decodeFront buf) := by
  obtain ⟨r, h⟩ := frontCase_exists buf
  rw [decodeFront_of_case h]
  exact h

/-- A row that the decoder reads meets its constraint. -/
theorem decodeFront_wellFormed {buf : List Byte} {i : Instr} (h : decodeFront buf = .ok i) : i.wellFormed = true := by
  have hc := frontCase buf
  rw [h] at hc
  cases hc with
  | header hne _ => simpa [Instr.wellFormed] using hne
  | oversized ho => simpa [Instr.wellFormed] using ho
  | @candidate t p x rest hp =>
    unfold candidateResult
    by_cases hx : crc16 (frameSpan t p) = x
    · by_cases h14 : p.length < DIST_MIN_PAYLOAD
      · simp [hx, h14, rowOfResult, Instr.wellFormed]
      · obtain ⟨d, hd⟩ := distanceField_isSome t p (Nat.le_of_not_lt h14)
        by_cases hn : d = NO_TARGET <;> simp [hx, h14, hd, hn, rowOfResult, Instr.wellFormed, hp, Nat.le_of_not_lt h14]
    · simp [hx, rowOfResult, Instr.wellFormed, hp]

/-- The decoder rejects a front in two ways only: the two stops of the loop (rules R71 and R75). -/
theorem decodeFront_error {buf : List Byte} {r : Reject} (h : decodeFront buf = .error r) :
    r = .hunting ∨ r = .lengthKnown := by
  have hc := frontCase buf
  rw [h] at hc
  cases hc <;> simp

/-- Stability as rule R79 states it. -/
theorem stable_def (buf : List Byte) :
    stable buf = true ↔ buf.length < 7 ∨
      (buf.take 4 = HDR ∧ ∃ l, lengthField buf = some l ∧ l.toNat ≤ MAX_PAYLOAD ∧ buf.length < 9 + l.toNat) := by
  unfold stable
  cases h : lengthField buf with
  | none => simp only [Bool.or_eq_true, Bool.and_eq_true, decide_eq_true_eq]; simp [MIN_HDRLEN]
  | some l =>
    have e : totalLength l = 9 + l.toNat := by unfold totalLength; omega
    simp only [Bool.or_eq_true, Bool.and_eq_true, decide_eq_true_eq, e]; simp [MIN_HDRLEN]

/-- The loop stops exactly on a stable window (rule R79). -/
theorem stable_iff (buf : List Byte) :
    stable buf = true ↔ decodeFront buf = .error .hunting ∨ decodeFront buf = .error .lengthKnown := by
  have hc := frontCase buf
  generalize decodeFront buf = r at hc ⊢
  rw [stable_def]
  cases hc with
  | short h => simp [h]
  | @header h0 h1 h2 h3 rest hne hl =>
    simp only [List.length_cons, List.take_succ_cons, List.take_zero]
    simp [hne]
    omega
  | @oversized t l rest h =>
    simp [be16, HDR, lengthField, Nat.not_le.2 h]
  | @waits t l rest h hl =>
    simp [be16, HDR, lengthField, h]
    omega
  | @candidate t p x rest hp =>
    have hp' : p.length < 65536 := by simp [MAX_PAYLOAD] at hp; omega
    have e : frameSpan t p ++ be16 x ++ rest = frameSpan t p ++ (be16 x ++ rest) := by simp
    rw [e]
    simp [Nat.mod_eq_of_lt hp']
    omega

/-- A stable window holds at most 40 bytes (rule R79). -/
theorem length_of_stable {buf : List Byte} (h : stable buf = true) : buf.length ≤ 40 := by
  have hc := frontCase buf
  rcases (stable_iff buf).1 h with h | h <;> rw [h] at hc
  · cases hc with
    | short h => omega
  · cases hc with
    | waits h hl => simp [be16, MAX_PAYLOAD] at *; omega

end Sys2Proof.Machine
end

