-- ==== Sys2Proof/Laws/State.lean ====
section
/-! SUPPORT. What each update of the state leaves in each field: one lemma per field per update. -/

namespace Sys2Proof.Machine

variable (s : State)

/-! ### setWindow -/

@[simp] theorem State.setWindow_buf (bs : List Byte) : (s.setWindow bs).buf = Memory.ofBytes bs := rfl
@[simp] theorem State.setWindow_started (bs : List Byte) : (s.setWindow bs).started = s.started := rfl
@[simp] theorem State.setWindow_lastActivity (bs : List Byte) : (s.setWindow bs).lastActivity = s.lastActivity := rfl
@[simp] theorem State.setWindow_lastPublished (bs : List Byte) : (s.setWindow bs).lastPublished = s.lastPublished := rfl
@[simp] theorem State.setWindow_rxq (bs : List Byte) : (s.setWindow bs).rxq = s.rxq := rfl
@[simp] theorem State.setWindow_now (bs : List Byte) : (s.setWindow bs).now = s.now := rfl
@[simp] theorem State.setWindow_txq (bs : List Byte) : (s.setWindow bs).txq = s.txq := rfl
@[simp] theorem State.setWindow_trace (bs : List Byte) : (s.setWindow bs).trace = s.trace := rfl
@[simp] theorem State.setWindow_published (bs : List Byte) : (s.setWindow bs).published = s.published := rfl
@[simp] theorem State.setWindow_line (bs : List Byte) : (s.setWindow bs).line = s.line := rfl
@[simp] theorem State.setWindow_diagLog (bs : List Byte) : (s.setWindow bs).diagLog = s.diagLog := rfl
@[simp] theorem State.setWindow_mode (bs : List Byte) : (s.setWindow bs).mode = s.mode := rfl
@[simp] theorem State.setWindow_port (bs : List Byte) : (s.setWindow bs).port = s.port := rfl
@[simp] theorem State.setWindow_draws (bs : List Byte) : (s.setWindow bs).draws = s.draws := rfl

/-! ### emit -/

@[simp] theorem State.emit_buf (evs : List Event) : (s.emit evs).buf = s.buf := rfl
@[simp] theorem State.emit_started (evs : List Event) : (s.emit evs).started = s.started := rfl
@[simp] theorem State.emit_lastActivity (evs : List Event) : (s.emit evs).lastActivity = s.lastActivity := rfl
@[simp] theorem State.emit_lastPublished (evs : List Event) : (s.emit evs).lastPublished = s.lastPublished := rfl
@[simp] theorem State.emit_rxq (evs : List Event) : (s.emit evs).rxq = s.rxq := rfl
@[simp] theorem State.emit_now (evs : List Event) : (s.emit evs).now = s.now := rfl
@[simp] theorem State.emit_txq (evs : List Event) : (s.emit evs).txq = s.txq := rfl
@[simp] theorem State.emit_trace (evs : List Event) : (s.emit evs).trace = s.trace ++ evs := rfl
@[simp] theorem State.emit_published (evs : List Event) : (s.emit evs).published = s.published := rfl
@[simp] theorem State.emit_line (evs : List Event) : (s.emit evs).line = s.line := rfl
@[simp] theorem State.emit_diagLog (evs : List Event) : (s.emit evs).diagLog = s.diagLog := rfl
@[simp] theorem State.emit_mode (evs : List Event) : (s.emit evs).mode = s.mode := rfl
@[simp] theorem State.emit_port (evs : List Event) : (s.emit evs).port = s.port := rfl
@[simp] theorem State.emit_draws (evs : List Event) : (s.emit evs).draws = s.draws := rfl

/-! ### enterBlock -/

@[simp] theorem State.enterBlock_buf : (s.enterBlock).buf = s.buf := rfl
@[simp] theorem State.enterBlock_started : (s.enterBlock).started = s.started := rfl
@[simp] theorem State.enterBlock_lastActivity : (s.enterBlock).lastActivity = s.lastActivity := rfl
@[simp] theorem State.enterBlock_lastPublished : (s.enterBlock).lastPublished = s.lastPublished := rfl
@[simp] theorem State.enterBlock_rxq : (s.enterBlock).rxq = s.rxq := rfl
@[simp] theorem State.enterBlock_now : (s.enterBlock).now = s.now := rfl
@[simp] theorem State.enterBlock_txq : (s.enterBlock).txq = s.txq := rfl
@[simp] theorem State.enterBlock_trace : (s.enterBlock).trace = s.trace := rfl
@[simp] theorem State.enterBlock_published : (s.enterBlock).published = s.published := rfl
@[simp] theorem State.enterBlock_line : (s.enterBlock).line = s.line := rfl
@[simp] theorem State.enterBlock_diagLog : (s.enterBlock).diagLog = s.diagLog := rfl
@[simp] theorem State.enterBlock_port : (s.enterBlock).port = s.port := rfl
@[simp] theorem State.enterBlock_draws : (s.enterBlock).draws = s.draws := rfl

/-! ### writeBytes -/

@[simp] theorem State.writeBytes_buf (bs : List Byte) : (s.writeBytes bs).buf = s.buf := rfl
@[simp] theorem State.writeBytes_started (bs : List Byte) : (s.writeBytes bs).started = s.started := rfl
@[simp] theorem State.writeBytes_lastActivity (bs : List Byte) : (s.writeBytes bs).lastActivity = s.lastActivity := rfl
@[simp] theorem State.writeBytes_lastPublished (bs : List Byte) : (s.writeBytes bs).lastPublished = s.lastPublished := rfl
@[simp] theorem State.writeBytes_rxq (bs : List Byte) : (s.writeBytes bs).rxq = s.rxq := rfl
@[simp] theorem State.writeBytes_now (bs : List Byte) : (s.writeBytes bs).now = s.now := rfl
@[simp] theorem State.writeBytes_txq (bs : List Byte) : (s.writeBytes bs).txq = s.txq ++ bs := rfl
@[simp] theorem State.writeBytes_trace (bs : List Byte) : (s.writeBytes bs).trace = s.trace := rfl
@[simp] theorem State.writeBytes_published (bs : List Byte) : (s.writeBytes bs).published = s.published := rfl
@[simp] theorem State.writeBytes_line (bs : List Byte) : (s.writeBytes bs).line = s.line := rfl
@[simp] theorem State.writeBytes_diagLog (bs : List Byte) : (s.writeBytes bs).diagLog = s.diagLog := rfl
@[simp] theorem State.writeBytes_mode (bs : List Byte) : (s.writeBytes bs).mode = s.mode := rfl
@[simp] theorem State.writeBytes_port (bs : List Byte) : (s.writeBytes bs).port = s.port := rfl
@[simp] theorem State.writeBytes_draws (bs : List Byte) : (s.writeBytes bs).draws = s.draws := rfl

/-! ### flush -/

@[simp] theorem State.flush_buf : (s.flush).buf = s.buf := rfl
@[simp] theorem State.flush_started : (s.flush).started = s.started := rfl
@[simp] theorem State.flush_lastActivity : (s.flush).lastActivity = s.lastActivity := rfl
@[simp] theorem State.flush_lastPublished : (s.flush).lastPublished = s.lastPublished := rfl
@[simp] theorem State.flush_rxq : (s.flush).rxq = s.rxq := rfl
@[simp] theorem State.flush_now : (s.flush).now = s.now := rfl
@[simp] theorem State.flush_txq : (s.flush).txq = [] := rfl
@[simp] theorem State.flush_trace : (s.flush).trace = s.trace := rfl
@[simp] theorem State.flush_published : (s.flush).published = s.published := rfl
@[simp] theorem State.flush_line : (s.flush).line = s.line ++ s.txq := rfl
@[simp] theorem State.flush_diagLog : (s.flush).diagLog = s.diagLog := rfl
@[simp] theorem State.flush_mode : (s.flush).mode = s.mode := rfl
@[simp] theorem State.flush_port : (s.flush).port = s.port := rfl
@[simp] theorem State.flush_draws : (s.flush).draws = s.draws := rfl

/-! ### sendStart -/

@[simp] theorem State.sendStart_buf : (s.sendStart).buf = s.buf := rfl
@[simp] theorem State.sendStart_started : (s.sendStart).started = true := rfl
@[simp] theorem State.sendStart_lastActivity : (s.sendStart).lastActivity = s.now := rfl
@[simp] theorem State.sendStart_lastPublished : (s.sendStart).lastPublished = s.lastPublished := rfl
@[simp] theorem State.sendStart_rxq : (s.sendStart).rxq = s.rxq := rfl
@[simp] theorem State.sendStart_now : (s.sendStart).now = s.now := rfl
@[simp] theorem State.sendStart_txq : (s.sendStart).txq = [] := rfl
@[simp] theorem State.sendStart_trace : (s.sendStart).trace = s.trace := rfl
@[simp] theorem State.sendStart_published : (s.sendStart).published = s.published := rfl
@[simp] theorem State.sendStart_line : (s.sendStart).line = s.line ++ (s.txq ++ START_CMD) := rfl
@[simp] theorem State.sendStart_diagLog : (s.sendStart).diagLog = s.diagLog := rfl
@[simp] theorem State.sendStart_mode : (s.sendStart).mode = s.mode := rfl
@[simp] theorem State.sendStart_port : (s.sendStart).port = s.port := rfl
@[simp] theorem State.sendStart_draws : (s.sendStart).draws = s.draws := rfl

/-! ### publish -/

@[simp] theorem State.publish_buf (v : PublishValue) (p : Published) : (s.publish v p).buf = s.buf := rfl
@[simp] theorem State.publish_started (v : PublishValue) (p : Published) : (s.publish v p).started = s.started := rfl
@[simp] theorem State.publish_lastActivity (v : PublishValue) (p : Published) : (s.publish v p).lastActivity = s.lastActivity := rfl
@[simp] theorem State.publish_lastPublished (v : PublishValue) (p : Published) : (s.publish v p).lastPublished = p := rfl
@[simp] theorem State.publish_rxq (v : PublishValue) (p : Published) : (s.publish v p).rxq = s.rxq := rfl
@[simp] theorem State.publish_now (v : PublishValue) (p : Published) : (s.publish v p).now = s.now := rfl
@[simp] theorem State.publish_txq (v : PublishValue) (p : Published) : (s.publish v p).txq = s.txq := rfl
@[simp] theorem State.publish_trace (v : PublishValue) (p : Published) : (s.publish v p).trace = s.trace := rfl
@[simp] theorem State.publish_published (v : PublishValue) (p : Published) : (s.publish v p).published = s.published ++ [v] := rfl
@[simp] theorem State.publish_line (v : PublishValue) (p : Published) : (s.publish v p).line = s.line := rfl
@[simp] theorem State.publish_diagLog (v : PublishValue) (p : Published) : (s.publish v p).diagLog = s.diagLog := rfl
@[simp] theorem State.publish_mode (v : PublishValue) (p : Published) : (s.publish v p).mode = s.mode := rfl
@[simp] theorem State.publish_port (v : PublishValue) (p : Published) : (s.publish v p).port = s.port := rfl
@[simp] theorem State.publish_draws (v : PublishValue) (p : Published) : (s.publish v p).draws = s.draws := rfl

/-! ### touchActivity -/

@[simp] theorem State.touchActivity_buf : (s.touchActivity).buf = s.buf := rfl
@[simp] theorem State.touchActivity_started : (s.touchActivity).started = s.started := rfl
@[simp] theorem State.touchActivity_lastActivity : (s.touchActivity).lastActivity = s.now := rfl
@[simp] theorem State.touchActivity_lastPublished : (s.touchActivity).lastPublished = s.lastPublished := rfl
@[simp] theorem State.touchActivity_rxq : (s.touchActivity).rxq = s.rxq := rfl
@[simp] theorem State.touchActivity_now : (s.touchActivity).now = s.now := rfl
@[simp] theorem State.touchActivity_txq : (s.touchActivity).txq = s.txq := rfl
@[simp] theorem State.touchActivity_trace : (s.touchActivity).trace = s.trace := rfl
@[simp] theorem State.touchActivity_published : (s.touchActivity).published = s.published := rfl
@[simp] theorem State.touchActivity_line : (s.touchActivity).line = s.line := rfl
@[simp] theorem State.touchActivity_diagLog : (s.touchActivity).diagLog = s.diagLog := rfl
@[simp] theorem State.touchActivity_mode : (s.touchActivity).mode = s.mode := rfl
@[simp] theorem State.touchActivity_port : (s.touchActivity).port = s.port := rfl
@[simp] theorem State.touchActivity_draws : (s.touchActivity).draws = s.draws := rfl

/-- A run that has begun keeps its mode. -/
theorem State.enterBlock_mode_of_begun (h : s.mode ≠ .fresh) : s.enterBlock.mode = s.mode := by
  cases hm : s.mode <;> simp_all [State.enterBlock]

/-- An operation of the block in a fresh run makes a run of the block alone. -/
theorem State.enterBlock_mode_of_fresh (h : s.mode = .fresh) : s.enterBlock.mode = .blockAlone := by
  simp [State.enterBlock, h]

@[simp] theorem State.enterBlock_window : s.enterBlock.window = s.window := rfl

/-- Entering the block twice is entering it once (rule R126). -/
@[simp] theorem State.enterBlock_enterBlock : s.enterBlock.enterBlock = s.enterBlock := by
  cases hm : s.mode <;> simp [State.enterBlock, hm]

/-- An operation of the block begins no system run. -/
@[simp] theorem State.enterBlock_mode_eq_system : s.enterBlock.mode = .system ↔ s.mode = .system := by
  cases hm : s.mode <;> simp [State.enterBlock, hm]

end Sys2Proof.Machine
end

