-- ==== Sys2Proof/Laws/Memory.lean ====
section
/-! SUPPORT. The Frame Buffer's cells: the window and the cells say the same (rule R18), a read gives the byte at its index or
none (rule R19), and every memory operation keeps the canonical form (rule R17). -/

namespace Sys2Proof.Machine

theorem Memory.bytes_cellsFrom (bs : List Byte) (i : Nat) : Memory.bytes (Memory.cellsFrom i bs) = bs := by
  induction bs generalizing i with
  | nil => rfl
  | cons b bs ih => simpa [Memory.cellsFrom, Memory.bytes] using ih (i + 1)

@[simp] theorem Memory.bytes_ofBytes (bs : List Byte) : Memory.bytes (Memory.ofBytes bs) = bs :=
  Memory.bytes_cellsFrom bs 0

@[simp] theorem Memory.length_bytes (m : Memory) : (Memory.bytes m).length = m.length := by
  simp [Memory.bytes]

@[simp] theorem Memory.length_ofBytes (bs : List Byte) : (Memory.ofBytes bs).length = bs.length := by
  rw [← Memory.length_bytes, Memory.bytes_ofBytes]

@[simp] theorem State.window_setWindow (s : State) (bs : List Byte) : (s.setWindow bs).window = bs :=
  Memory.bytes_ofBytes bs

@[simp] theorem State.len_setWindow (s : State) (bs : List Byte) : (s.setWindow bs).len = bs.length :=
  Memory.length_ofBytes bs

@[simp] theorem State.window_emit (s : State) (evs : List Event) : (s.emit evs).window = s.window := rfl

theorem State.length_window (s : State) : s.window.length = s.len := Memory.length_bytes s.buf

theorem Memory.read_cellsFrom (bs : List Byte) (i j : Nat) :
    Memory.read (Memory.cellsFrom i bs) (i + j) = bs[j]? := by
  induction bs generalizing i j with
  | nil => rfl
  | cons b bs ih =>
    cases j with
    | zero => simp [Memory.read, Memory.cellsFrom]
    | succ j =>
      have h : Memory.read (Memory.cellsFrom i (b :: bs)) (i + (j + 1))
          = Memory.read (Memory.cellsFrom (i + 1) bs) (i + 1 + j) := by
        have e : i + (j + 1) = i + 1 + j := by omega
        have ne : (i == i + 1 + j) = false := by simp; omega
        rw [e]
        simp [Memory.read, Memory.cellsFrom, ne]
      rw [h, ih]
      simp

/-- A read gives the byte of the window at its index, and none past its end (rules R18 and R19). -/
@[simp] theorem Memory.read_ofBytes (bs : List Byte) (i : Nat) : Memory.read (Memory.ofBytes bs) i = bs[i]? := by
  simpa [Memory.ofBytes] using Memory.read_cellsFrom bs 0 i

/-- The indices of the cells rise strictly. -/
theorem Memory.cellsFrom_rising (bs : List Byte) (i : Nat) :
    (Memory.cellsFrom i bs).Pairwise (fun a b => a.1 < b.1) ∧ ∀ c ∈ Memory.cellsFrom i bs, i ≤ c.1 := by
  induction bs generalizing i with
  | nil => simp [Memory.cellsFrom]
  | cons b bs ih =>
    obtain ⟨hp, hl⟩ := ih (i + 1)
    refine ⟨List.pairwise_cons.2 ⟨fun c hc => ?_, hp⟩, fun c hc => ?_⟩
    · have := hl c hc; simp; omega
    · rcases List.mem_cons.1 hc with rfl | hc
      · exact Nat.le_refl _
      · have := hl c hc; omega

theorem Memory.wf_iff (m : Memory) : Memory.wf m = true ↔ m = Memory.ofBytes (Memory.bytes m) ∧ m.length ≤ CAP := by
  simp [Memory.wf]

/-- In the canonical form the indices rise strictly. -/
theorem Memory.wf_rising {m : Memory} (h : Memory.wf m = true) : m.Pairwise (fun a b => a.1 < b.1) := by
  rw [((Memory.wf_iff m).1 h).1]
  exact (Memory.cellsFrom_rising _ 0).1

/-- In the canonical form a read is a read of the window (rule R18). -/
theorem Memory.read_of_wf {m : Memory} (h : Memory.wf m = true) (i : Nat) : Memory.read m i = (Memory.bytes m)[i]? := by
  rw [((Memory.wf_iff m).1 h).1, Memory.read_ofBytes, Memory.bytes_ofBytes]

@[simp] theorem Memory.wf_ofBytes (bs : List Byte) : Memory.wf (Memory.ofBytes bs) = true ↔ bs.length ≤ CAP := by
  simp [Memory.wf_iff]

/-- Storing a window of at most `CAP` bytes keeps the canonical form, whatever was stored before. -/
theorem State.setWindow_wf (s : State) (bs : List Byte) (h : bs.length ≤ CAP) : Memory.wf (s.setWindow bs).buf = true := by
  simpa using h

theorem State.reset_wf : Memory.wf State.reset.buf = true := by decide

/-- APPEND keeps `len ≤ CAP` (rules R17 and R63). -/
theorem append_length {b : Byte} {buf buf' : List Byte} (h : append b buf = some buf') :
    buf' = buf ++ [b] ∧ buf'.length ≤ CAP := by
  unfold append at h
  split at h
  · cases h; simp; omega
  · cases h

/-- DROP_FRONT keeps `len ≤ CAP` (rules R17 and R64). -/
theorem dropFront_length {n : Nat} {buf buf' : List Byte} (h : dropFront n buf = .ok buf') :
    n ≤ buf.length ∧ buf' = buf.drop n ∧ buf'.length ≤ buf.length := by
  unfold dropFront at h
  split at h
  · cases h
  · cases h; simp; omega

/-- CLEAR leaves an empty window (rule R65). -/
@[simp] theorem clear_eq (buf : List Byte) : clear buf = [] := rfl

/-- Reading a field of the window twice gives its big-endian value (rules R67 and R48). -/
theorem readU16be_five (f : List Byte) (l : Half) : readU16be 5 f = .ok l ↔ lengthField f = some l := by
  cases h5 : f[5]? <;> cases h6 : f[6]? <;> simp [readU16be, readByte, lengthField, h5, h6, bind, Except.bind, pure, Except.pure]

end Sys2Proof.Machine
end

