-- ==== Sys2Proof/Laws/Loop.lean ====
section
/-! SUPPORT. The synchronizer loop, said once (rules R70, R79, R81): it stops on a stable window, and otherwise performs the row
at the front, which removes at least one byte, and goes on with what is left. It raises no fault. -/

namespace Sys2Proof.Machine

/-- The row of a candidate frame consumes it or drops one byte (rules R77, R78, R95). -/
theorem rowPass_candidate {t : Byte} {p : List Byte} {x : Half} (hp : p.length ≤ MAX_PAYLOAD) :
    ∃ n ev, rowPass (rowOfResult t p (candidateResult t p x)) = some ⟨.drop n, ev⟩ ∧
      (n = 1 ∨ n = 9 + p.length) := by
  unfold candidateResult
  by_cases hx : crc16 (frameSpan t p) = x
  · by_cases h14 : p.length < DIST_MIN_PAYLOAD
    · exact ⟨_, _, by simp [hx, h14, rowOfResult, rowPass, insufficientPass, Instr.wellFormed]; exact ⟨rfl, rfl⟩,
        .inr (by unfold frameLength; omega)⟩
    · obtain ⟨d, hd⟩ := distanceField_isSome t p (Nat.le_of_not_lt h14)
      by_cases hn : d = NO_TARGET
      · exact ⟨_, _, by
          simp [hx, h14, hd, hn, rowOfResult, rowPass, noTargetPass, Instr.wellFormed, hp, Nat.le_of_not_lt h14]
          exact ⟨rfl, rfl⟩, .inr (by unfold frameLength; omega)⟩
      · exact ⟨_, _, by
          simp [hx, h14, hd, hn, rowOfResult, rowPass, distancePass, Instr.wellFormed, hp, Nat.le_of_not_lt h14]
          exact ⟨rfl, rfl⟩, .inr (by unfold frameLength; omega)⟩
  · exact ⟨1, _, by simp [hx, rowOfResult, rowPass, checksumPass, Instr.wellFormed, hp]; rfl, .inl rfl⟩

/-- Every row the decoder reads is a pass that drops at least one byte and no more than there are (rules R68 and R70). -/
theorem rowPass_of_decoded {buf : List Byte} {i : Instr} (h : decodeFront buf = .ok i) :
    ∃ n ev, rowPass i = some ⟨.drop n, ev⟩ ∧ 1 ≤ n ∧ n ≤ buf.length ∧ 7 ≤ buf.length := by
  have hc := frontCase buf
  rw [h] at hc
  cases hc with
  | header hne hl => exact ⟨1, _, by simp [rowPass, headerMismatchPass, Instr.wellFormed, hne]; rfl, by simp; omega⟩
  | oversized ho => exact ⟨1, _, by simp [rowPass, oversizedPass, Instr.wellFormed, ho]; rfl, by simp [be16, HDR]⟩
  | candidate hp =>
    obtain ⟨n, ev, hr, hn⟩ := rowPass_candidate hp
    exact ⟨n, ev, hr, by simp; omega⟩

/-- More fuel than bytes changes nothing. -/
theorem syncRun_fuel (k : Nat) (buf : List Byte) (h : buf.length ≤ k) : syncRun k buf = syncLoop buf := by
  induction k using Nat.strong_induction_on generalizing buf with
  | _ k ih =>
    unfold syncLoop
    cases hd : decodeFront buf with
    | error r =>
      rcases decodeFront_error hd with rfl | rfl <;> cases k <;> cases hb : buf.length <;> simp [syncRun, hd]
    | ok i =>
      obtain ⟨n, ev, hr, h1, hn, h7⟩ := rowPass_of_decoded hd
      obtain ⟨k, rfl⟩ : ∃ k', k = k' + 1 := ⟨k - 1, by omega⟩
      obtain ⟨m, hm⟩ : ∃ m, buf.length = m + 1 := ⟨buf.length - 1, by omega⟩
      rw [hm]
      have hdrop : dropFront n buf = .ok (buf.drop n) := by simp [dropFront]; omega
      have e1 := ih k (by omega) (buf.drop n) (by simp; omega)
      have e2 : syncRun m (buf.drop n) = syncLoop (buf.drop n) := by
        by_cases hmk : m = k
        · rw [hmk, e1]
        · exact ih m (by omega) (buf.drop n) (by simp; omega)
      simp [syncRun, hd, hr, hdrop, e1, e2]

/-- A stable window stops the loop with no event (rules R71 and R75). -/
theorem syncLoop_of_stable {buf : List Byte} (h : stable buf = true) : syncLoop buf = .ok (buf, []) := by
  rcases (stable_iff buf).1 h with hd | hd <;> unfold syncLoop <;> cases hb : buf.length <;> simp [syncRun, hd]

/-- One pass: the row at the front is performed and the loop re-enters with the bytes it leaves (rule R70). -/
theorem syncLoop_pass {buf : List Byte} {i : Instr} {n : Nat} {ev : Event} (hd : decodeFront buf = .ok i)
    (hr : rowPass i = some ⟨.drop n, ev⟩) : syncLoop buf = afterEvent ev (syncLoop (buf.drop n)) := by
  obtain ⟨n', ev', hr', h1, hn, h7⟩ := rowPass_of_decoded hd
  rw [hr] at hr'
  cases hr'
  have hdrop : dropFront n buf = .ok (buf.drop n) := by simp [dropFront]; omega
  obtain ⟨m, hm⟩ : ∃ m, buf.length = m + 1 := ⟨buf.length - 1, by omega⟩
  have e := syncRun_fuel m (buf.drop n) (by simp; omega)
  conv_lhs => unfold syncLoop
  rw [hm]
  simp [syncRun, hd, hr, hdrop, e]

/-- Everything the loop can do (rules R70, R79, R81): it raises no fault, leaves a stable rest of the window it began with, and
emits at most one event for each byte it removed, none while fewer than 7 bytes are left. -/
theorem syncLoop_spec (buf : List Byte) :
    ∃ k evs, syncLoop buf = .ok (buf.drop k, evs) ∧ k ≤ buf.length ∧ stable (buf.drop k) = true ∧
      evs.length ≤ k ∧ evs.length ≤ buf.length - 6 := by
  induction hlen : buf.length using Nat.strong_induction_on generalizing buf with
  | _ len ih =>
    cases hd : decodeFront buf with
    | error r =>
      have hs : stable buf = true := (stable_iff buf).2 (by rcases decodeFront_error hd with rfl | rfl <;> simp [hd])
      exact ⟨0, [], by simp [syncLoop_of_stable hs], by omega, by simpa using hs, by simp, by simp⟩
    | ok i =>
      obtain ⟨n, ev, hr, h1, hn, h7⟩ := rowPass_of_decoded hd
      obtain ⟨k, evs, hk, hkl, hs, hc, hc'⟩ := ih (buf.drop n).length (by simp; omega) (buf.drop n) rfl
      rw [List.drop_drop] at hk hs
      simp at hkl hc'
      refine ⟨n + k, ev :: evs, ?_, by omega, hs, by simp; omega, by simp; omega⟩
      rw [syncLoop_pass hd hr, hk]
      rfl

/-- The window an operation of the block leaves is a rest of what it had, and stable (rules R63, R79). -/
theorem byteBlock_spec (b : Byte) (buf : List Byte) :
    ∃ k evs, byteBlock b buf = .ok ((buf ++ [b]).drop k, evs) ∧ k ≤ buf.length + 1 ∧
      stable ((buf ++ [b]).drop k) = true ∧ evs.length ≤ k := by
  by_cases hc : buf.length < CAP
  · obtain ⟨k, evs, h, hk, hs, he, _⟩ := syncLoop_spec (buf ++ [b])
    exact ⟨k, evs, by simpa [byteBlock, append, hc] using h, by simpa using hk, hs, he⟩
  · exact ⟨buf.length + 1, [.bufferOverflow], by simp [byteBlock, append, hc], by omega, by simp; decide, by simp⟩

end Sys2Proof.Machine
end

