-- ==== Sys2Proof/Laws/Environment.lean ====
section
/-! SUPPORT. What delivering events, BYTE and the byte drain can do to the state, said once (rules R99, R100, R104 to R106). -/

namespace Sys2Proof.Machine

/-- What no operation of the block and no delivery writes, and what they only extend. -/
structure Untouched (s t : State) : Prop where
  started : t.started = s.started
  now : t.now = s.now
  txq : t.txq = s.txq
  line : t.line = s.line
  diagLog : t.diagLog = s.diagLog
  port : t.port = s.port
  published : s.published <+: t.published
  draws : s.draws ≤ t.draws

theorem Untouched.refl (s : State) : Untouched s s := ⟨rfl, rfl, rfl, rfl, rfl, rfl, List.prefix_rfl, Nat.le_refl _⟩

theorem Untouched.trans {s t u : State} (h : Untouched s t) (h' : Untouched t u) : Untouched s u :=
  ⟨h'.started.trans h.started, h'.now.trans h.now, h'.txq.trans h.txq, h'.line.trans h.line, h'.diagLog.trans h.diagLog,
    h'.port.trans h.port, h.published.trans h'.published, h.draws.trans h'.draws⟩

/-- What a delivery also leaves alone. -/
structure DeliveredFrom (s t : State) : Prop extends Untouched s t where
  buf : t.buf = s.buf
  rxq : t.rxq = s.rxq
  trace : t.trace = s.trace
  mode : t.mode = s.mode

theorem DeliveredFrom.refl (s : State) : DeliveredFrom s s := ⟨Untouched.refl s, rfl, rfl, rfl, rfl⟩

theorem DeliveredFrom.trans {s t u : State} (h : DeliveredFrom s t) (h' : DeliveredFrom t u) : DeliveredFrom s u :=
  ⟨h.toUntouched.trans h'.toUntouched, h'.buf.trans h.buf, h'.rxq.trans h.rxq, h'.trace.trans h.trace, h'.mode.trans h.mode⟩

theorem publish_deliveredFrom (s : State) (v : PublishValue) (p : Published) : DeliveredFrom s (s.publish v p) :=
  ⟨⟨rfl, rfl, rfl, rfl, rfl, rfl, List.prefix_append _ _, Nat.le_refl _⟩, rfl, rfl, rfl, rfl⟩

theorem touchActivity_deliveredFrom (s : State) : DeliveredFrom s s.touchActivity :=
  ⟨⟨rfl, rfl, rfl, rfl, rfl, rfl, List.prefix_rfl, Nat.le_refl _⟩, rfl, rfl, rfl, rfl⟩

theorem publishNoTarget_deliveredFrom (s : State) : DeliveredFrom s (publishNoTarget s) := by
  unfold publishNoTarget
  split
  · exact .refl s
  · exact publish_deliveredFrom s _ _
  · exact publish_deliveredFrom s _ _

theorem publishDistance_deliveredFrom (hyst : HystTest) (d : Nat) (s : State) :
    DeliveredFrom s (publishDistance hyst d s) := by
  have drawn : DeliveredFrom s { s with draws := s.draws + 1 } :=
    ⟨⟨rfl, rfl, rfl, rfl, rfl, rfl, List.prefix_rfl, Nat.le_succ _⟩, rfl, rfl, rfl, rfl⟩
  unfold publishDistance
  split
  · exact publish_deliveredFrom s _ _
  · exact publish_deliveredFrom s _ _
  · dsimp only
    split <;> split
    · exact drawn.trans (publish_deliveredFrom _ _ _)
    · exact publish_deliveredFrom s _ _
    · exact drawn
    · exact .refl s

/-- What a delivery leaves alone (rules R100, R104 to R106). -/
theorem deliver_deliveredFrom (hyst : HystTest) (e : Event) (s : State) :
    DeliveredFrom s (deliver hyst e s) := by
  cases e with
  | frameDistance d => exact (touchActivity_deliveredFrom s).trans (publishDistance_deliveredFrom hyst _ _)
  | frameNoTarget => exact (touchActivity_deliveredFrom s).trans (publishNoTarget_deliveredFrom _)
  | frameInsufficient => exact touchActivity_deliveredFrom s
  | bufferOverflow => exact .refl s
  | headerMismatch h => exact .refl s
  | oversizedPayloadField l => exact .refl s
  | frameTooLarge t => exact .refl s
  | checksumMismatch c x => exact .refl s
  | tooShort n => exact .refl s
  | linkTimeout => exact .refl s

theorem deliverAll_deliveredFrom (hyst : HystTest) (evs : List Event) (s : State) :
    DeliveredFrom s (deliverAll hyst evs s) := by
  induction evs generalizing s with
  | nil => exact .refl s
  | cons e es ih => exact (deliver_deliveredFrom hyst e s).trans (ih _)

/-- What the delivery leaves alone, with or without an environment (rules R96 and R101). -/
theorem deliverInSystem_deliveredFrom (hyst : HystTest) (evs : List Event) (s : State) :
    DeliveredFrom s (deliverInSystem hyst evs s) := by
  unfold deliverInSystem
  split
  · exact deliverAll_deliveredFrom hyst evs s
  · exact .refl s
  · exact .refl s

/-- Without an environment nothing is delivered (rule R101). -/
theorem deliverInSystem_of_ne {s : State} (h : s.mode ≠ .system) (hyst : HystTest) (evs : List Event) :
    deliverInSystem hyst evs s = s := by
  cases hm : s.mode <;> simp_all [deliverInSystem]

/-- What an operation of the block does to a state: the window and the events are the block's, the rest is as after a delivery. -/
structure BlockFrom (s t : State) (buf : List Byte) (evs : List Event) : Prop extends Untouched s t where
  buf : t.buf = Memory.ofBytes buf
  rxq : t.rxq = s.rxq
  trace : t.trace = s.trace ++ evs
  mode : t.mode = s.enterBlock.mode

theorem BlockFrom.window {s t : State} {buf : List Byte} {evs : List Event} (h : BlockFrom s t buf evs) : t.window = buf := by
  rw [State.window, h.buf, Memory.bytes_ofBytes]

/-- The end of an operation of the block (rules R96 and R112). -/
theorem finishBlock_spec (hyst : HystTest) (s : State) (buf : List Byte) (evs : List Event) :
    ∃ t, finishBlock hyst s.enterBlock (.ok (buf, evs)) = .next t ∧ BlockFrom s t buf evs := by
  have h := deliverInSystem_deliveredFrom hyst evs ((s.enterBlock.setWindow buf).emit evs)
  exact ⟨_, rfl, ⟨⟨h.started, h.now, h.txq, h.line, h.diagLog, h.port, h.published, h.draws⟩, h.buf, h.rxq, h.trace, h.mode⟩⟩

/-- Everything BYTE can do: it always answers a next state, with the window and the events of the block (rule R68). -/
theorem byteWith_spec (hyst : HystTest) (b : Byte) (s : State) :
    ∃ buf evs t, byteBlock b s.window = .ok (buf, evs) ∧ byteWith hyst b s = .next t ∧ BlockFrom s t buf evs := by
  obtain ⟨k, evs, hb, _⟩ := byteBlock_spec b s.window
  obtain ⟨t, ht, h⟩ := finishBlock_spec hyst s ((s.window ++ [b]).drop k) evs
  exact ⟨_, evs, t, hb, by rw [byteWith, hb, ht], h⟩

/-- Everything the byte drain can do: it always answers a next state, having fed the block the first `j` bytes of `rxq`; it
stops before `k` bytes only where the queue is empty or a read answered `None` (rule R99). -/
theorem drainWith_spec (readNone : Nat → Bool) (hyst : HystTest) (k : Nat) (s : State)
    (hm : s.mode ≠ .fresh) :
    ∃ j evs t, j ≤ k ∧ j ≤ s.rxq.length ∧ drainWith readNone hyst k s = .next t ∧ Untouched s t ∧ t.mode = s.mode ∧
      feedBlock (s.rxq.take j) s.window = .ok (t.window, evs) ∧ (j = 0 → t.buf = s.buf) ∧
      (0 < j → t.buf = Memory.ofBytes t.window) ∧ t.rxq = s.rxq.drop j ∧ t.trace = s.trace ++ evs ∧
      (j < k → j < s.rxq.length → ∃ n, s.draws ≤ n ∧ n < t.draws ∧ readNone n = true) := by
  induction k generalizing s with
  | zero => exact ⟨0, [], s, by simp, by simp, rfl, .refl s, rfl, by simp [feedBlock], by simp, by simp, by simp, by simp, by simp⟩
  | succ k ih =>
    cases hq : s.rxq with
    | nil =>
      exact ⟨0, [], s, by simp, by simp, by simp [drainWith, hq], .refl s, rfl, by simp [feedBlock], by simp, by simp,
        by simp [hq], by simp, by simp⟩
    | cons b rest =>
      by_cases hn : readNone s.draws = true
      · refine ⟨0, [], { s with draws := s.draws + 1 }, by simp, by simp, by simp [drainWith, hq, hn], ?_, rfl, ?_, by simp,
          by simp, by simp [hq], by simp, fun _ _ => ⟨_, Nat.le_refl _, Nat.lt_succ_self _, hn⟩⟩
        · exact ⟨rfl, rfl, rfl, rfl, rfl, rfl, List.prefix_rfl, Nat.le_succ _⟩
        · simp [feedBlock, State.window]
      · obtain ⟨buf, evs, t, hb, ht, h⟩ := byteWith_spec hyst b { s with rxq := rest, draws := s.draws + 1 }
        have hmode : t.mode = s.mode := h.mode.trans (State.enterBlock_mode_of_begun { s with rxq := rest, draws := s.draws + 1 } hm)
        have hrx : t.rxq = rest := h.rxq
        obtain ⟨j, evs', u, hj, hjl, hu, hun, hmu, hf, hc0, hc1, hrxu, htr, hnone⟩ := ih t (by rw [hmode]; exact hm)
        have hst : Untouched s t := ⟨h.started, h.now, h.txq, h.line, h.diagLog, h.port, h.published, (Nat.le_succ _).trans h.draws⟩
        have hw : byteBlock b s.window = .ok (buf, evs) := hb
        rw [hrx, h.window] at hf
        refine ⟨j + 1, evs ++ evs', u, by omega, by rw [hrx] at hjl; simpa using hjl, ?_, hst.trans hun, hmu.trans hmode, ?_,
          by simp, ?_, ?_, ?_, ?_⟩
        · have hn' : readNone s.draws = false := by simpa using hn
          simp only [drainWith, hq, hn', ht, hu, Bool.false_eq_true, if_false]
        · simp [feedBlock, hw, hf]
        · intro _
          by_cases hj0 : j = 0
          · subst hj0
            have hwin : u.window = buf := by simp [feedBlock] at hf; exact hf.1.symm
            rw [hc0 rfl, h.buf, hwin]
          · exact hc1 (by omega)
        · rw [hrxu, hrx]; rfl
        · rw [htr, h.trace, List.append_assoc]
        · intro h1 h2
          obtain ⟨n, hn1, hn2, hn3⟩ := hnone (by omega) (by rw [hrx]; simpa using h2)
          exact ⟨n, hst.draws.trans hn1, hn2, hn3⟩

/-- One read of the byte drain that answers a byte: the byte leaves the queue, BYTE runs on it, and its events are delivered in
order before the next read (rule R99). -/
theorem drainWith_read (readNone : Nat → Bool) (hyst : HystTest) (k : Nat) {s : State} {b : Byte} {rest : List Byte}
    (hm : s.mode = .system) (hq : s.rxq = b :: rest) (hn : readNone s.draws = false) :
    ∃ buf evs, byteBlock b s.window = .ok (buf, evs) ∧ drainWith readNone hyst (k + 1) s = drainWith readNone hyst k
      (deliverAll hyst evs
        { s with buf := Memory.ofBytes buf, rxq := rest, trace := s.trace ++ evs, draws := s.draws + 1 }) := by
  obtain ⟨j, evs, hb, _⟩ := byteBlock_spec b s.window
  refine ⟨_, evs, hb, ?_⟩
  have hb' : byteBlock b { s with rxq := rest, draws := s.draws + 1 }.window = .ok ((s.window ++ [b]).drop j, evs) := hb
  simp only [drainWith, hq, hn, Bool.false_eq_true, if_false, byteWith, hb', finishBlock]
  simp only [deliverInSystem, State.enterBlock, State.setWindow, State.emit, hm]

/-- A queue within its depth stays within it when bytes arrive, and when bytes are taken (rule R11, D20). -/
theorem fitsDepth_enqueue {depth : Option Nat} {rxq : List Byte} (bytes : List Byte) (h : fitsDepth depth rxq.length = true) :
    fitsDepth depth (enqueue depth rxq bytes).length = true := by
  cases depth with
  | none => rfl
  | some n => simp [fitsDepth, enqueue] at h ⊢; omega

theorem fitsDepth_of_le {depth : Option Nat} {m n : Nat} (hle : m ≤ n) (h : fitsDepth depth n = true) :
    fitsDepth depth m = true := by
  cases depth with
  | none => rfl
  | some d => simp [fitsDepth] at h ⊢; omega

/-- Bytes already queued are neither lost nor reordered (rule R110). -/
theorem prefix_enqueue (depth : Option Nat) (rxq bytes : List Byte) : rxq <+: enqueue depth rxq bytes := by
  cases depth <;> exact List.prefix_append _ _

/-- An environment operation in a system run is its meaning (rule R101). -/
@[simp] theorem inSystem_of_system {m : String} {s : State} {r : Result} (h : s.mode = .system) : inSystem m s r = r := by
  simp [inSystem, h]

/-- Outside a system run it is refused (rule R101, D16). -/
theorem inSystem_of_ne {m : String} {s : State} {r : Result} (h : s.mode ≠ .system) :
    inSystem m s r = .refused (.beforeInit m) := by
  cases hm : s.mode <;> simp_all [inSystem]

/-- Everything a frame or reject row can do (rules R68, R70): refused outside its constraint; else its pass, then the loop. -/
theorem execRow_spec {m : String} {pass : Option Pass} {s : State} {r : Result} (h : execRow m pass s = r) :
    (pass = none ∧ r = .refused (.outsideClass m)) ∨
    (∃ n ev, pass = some ⟨.drop n, ev⟩ ∧ s.window.length < n ∧ r = .fault .dropPastEnd) ∨
    (∃ n ev k evs t, pass = some ⟨.drop n, ev⟩ ∧ n ≤ s.window.length ∧
      syncLoop (s.window.drop n) = .ok (s.window.drop (n + k), evs) ∧ stable (s.window.drop (n + k)) = true ∧
      r = .next t ∧ BlockFrom s t (s.window.drop (n + k)) (ev :: evs)) ∨
    (∃ ev t, pass = some ⟨.clearStop, ev⟩ ∧ r = .next t ∧ BlockFrom s t [] [ev]) := by
  subst h
  cases pass with
  | none => exact .inl ⟨rfl, rfl⟩
  | some p =>
    obtain ⟨rec, ev⟩ := p
    cases rec with
    | clearStop =>
      obtain ⟨t, ht, hb⟩ := finishBlock_spec Config.hyst s [] [ev]
      exact .inr (.inr (.inr ⟨ev, t, rfl, ht, hb⟩))
    | drop n =>
      by_cases hn : s.window.length < n
      · exact .inr (.inl ⟨n, ev, rfl, hn, by simp [execRow, passThenLoop, dropFront, hn, finishBlock]⟩)
      · obtain ⟨k, evs, hk, _, hs, _⟩ := syncLoop_spec (s.window.drop n)
        rw [List.drop_drop] at hk hs
        obtain ⟨t, ht, hb⟩ := finishBlock_spec Config.hyst s (s.window.drop (n + k)) (ev :: evs)
        exact .inr (.inr (.inl ⟨n, ev, k, evs, t, rfl, by omega, hk, hs, by
          rw [← ht]; simp [execRow, passThenLoop, dropFront, hn, hk, afterEvent], hb⟩))

end Sys2Proof.Machine
end

