-- ==== Sys2Proof/Laws/Float.lean ====
section
/-! SUPPORT. What a metre value is as a float, and what the consumer saw after one more publication. -/

namespace Sys2Proof.Machine

/-- 0 mm is 0.0 m in every format (rule R93). -/
@[simp] theorem metreFloat_zero (fmt : FloatFmt) : metreFloat fmt ⟨0⟩ = floatZero := rfl

/-- A publication is added behind what the consumer saw (rule R108). -/
@[simp] theorem consumerSaw_publish (s : State) (v : PublishValue) (p : Published) :
    (s.publish v p).consumerSaw = s.consumerSaw ++ [publishedFloat Config.floatFmt v] := by
  simp [State.consumerSaw, State.publish]

end Sys2Proof.Machine
end

