-- ==== Sys2Proof/Laws/Words.lean ====
section
/-! SUPPORT. The two fields of an operation word (rule R45), and the word of a BYTE. -/

namespace Sys2Proof

/-- The opcode of a word made of an opcode and a data byte. -/
theorem opcode_of_append (c : BitVec 4) (b : Byte) : BitVec.extractLsb' 8 4 (c ++ b) = c := by
  apply BitVec.eq_of_getLsbD_eq
  intro i hi
  rw [BitVec.getLsbD_extractLsb', BitVec.getLsbD_append]
  simp [hi]

/-- The data byte of a word made of an opcode and a data byte. -/
theorem data_of_append (c : BitVec 4) (b : Byte) : BitVec.extractLsb' 0 8 (c ++ b) = b := by
  apply BitVec.eq_of_getLsbD_eq
  intro i hi
  rw [BitVec.getLsbD_extractLsb', BitVec.getLsbD_append]
  simp [hi]

/-- Every word is its opcode followed by its data byte (rule R45). -/
theorem word_eq_append (w : BitVec 12) : w = BitVec.extractLsb' 8 4 w ++ BitVec.extractLsb' 0 8 w := by
  apply BitVec.eq_of_getLsbD_eq
  intro i hi
  have e := BitVec.getLsbD_append (x := BitVec.extractLsb' 8 4 w) (y := BitVec.extractLsb' 0 8 w) (i := i)
  refine Eq.trans ?_ e.symm
  rw [BitVec.getLsbD_extractLsb', BitVec.getLsbD_extractLsb']
  split
  · next h => simp [h]
  · next h => simp [show 8 + (i - 8) = i by omega, show i - 8 < 4 by omega]

/-- The BYTE words (rule R45). -/
theorem decodeOp_byte (b : Byte) : decodeOp (0x0#4 ++ b) = .ok (.byte b) := by
  unfold decodeOp
  simp only []
  rw [show BitVec.extractLsb' 8 4 (0x0#4 ++ b : BitVec 12) = 0 from opcode_of_append 0 b,
    show BitVec.extractLsb' 0 8 (0x0#4 ++ b : BitVec 12) = b from data_of_append 0 b]
  rfl

end Sys2Proof
end

