-- ==== Sys2Proof/Laws/PerInstr.lean ====
section
/-! SUPPORT. Statements made per instruction. `RowFormat`: the encoding of a well-formed instruction has its row's format and a
length that format allows (rules R45, R48, R49, R54). -/

namespace Sys2Proof.Laws.RowFormat

/-- The encoding is an operation word that decodes to the instruction, or a buffer front of 7 to 41 bytes, or the start command,
or a length below 9. -/
def Statement (i : Instr) : Prop :=
  i.wellFormed = true →
  match encode i with
  | .op w => decodeOp w = .ok i
  | .front bytes => MIN_HDRLEN ≤ bytes.length ∧ bytes.length ≤ MAX_FRAME
  | .command bytes => bytes = START_CMD
  | .candidate n => n < MIN_FRAME

theorem byte (b : Byte) : Statement (.byte b) := fun _ => decodeOp_byte b
theorem reset : Statement .reset := fun _ => rfl
theorem init : Statement .init := fun _ => rfl
theorem rxTick : Statement .rxTick := fun _ => rfl
theorem lmTick : Statement .lmTick := fun _ => rfl
theorem diag : Statement .diag := fun _ => rfl
theorem startCmd : Statement .startCmd := fun _ => rfl

/-- A frame of at most 32 payload bytes is 9 to 41 bytes long. -/
theorem length_frameBytes_bounds (t : Byte) (p : List Byte) (h : p.length ≤ MAX_PAYLOAD) :
    MIN_HDRLEN ≤ (frameBytes t p).length ∧ (frameBytes t p).length ≤ MAX_FRAME := by
  simp [MIN_HDRLEN, MAX_FRAME, MAX_PAYLOAD] at *
  omega

theorem frameDistance (t : Byte) (payload : List Byte) : Statement (.frameDistance t payload) := by
  intro h
  simp only [Instr.wellFormed, Bool.and_eq_true, decide_eq_true_eq] at h
  exact length_frameBytes_bounds t payload h.1.2

theorem frameNoTarget (t : Byte) (payload : List Byte) : Statement (.frameNoTarget t payload) := by
  intro h
  simp only [Instr.wellFormed, Bool.and_eq_true, decide_eq_true_eq] at h
  exact length_frameBytes_bounds t payload h.1.2

theorem frameInsufficient (t : Byte) (payload : List Byte) : Statement (.frameInsufficient t payload) := by
  intro h
  simp only [Instr.wellFormed, decide_eq_true_eq] at h
  exact length_frameBytes_bounds t payload (by simp [DIST_MIN_PAYLOAD, MAX_PAYLOAD] at *; omega)

theorem rejHeaderMismatch (h0 h1 h2 h3 : Byte) : Statement (.rejHeaderMismatch h0 h1 h2 h3) :=
  fun _ => by simp [encode, MIN_HDRLEN, MAX_FRAME]

theorem rejOversizedPayloadField (t : Byte) (l : Half) : Statement (.rejOversizedPayloadField t l) :=
  fun _ => by simp [encode, MIN_HDRLEN, MAX_FRAME]

theorem rejFrameTooLarge (t : Byte) (l : Half) : Statement (.rejFrameTooLarge t l) :=
  fun _ => by simp [encode, MIN_HDRLEN, MAX_FRAME]

theorem rejChecksumMismatch (t : Byte) (payload : List Byte) (x : Half) : Statement (.rejChecksumMismatch t payload x) := by
  intro h
  simp only [Instr.wellFormed, Bool.and_eq_true, decide_eq_true_eq] at h
  have h1 := h.1
  simp [encode, MIN_HDRLEN, MAX_FRAME, MAX_PAYLOAD] at *
  omega

theorem rejTooShort (n : Nat) : Statement (.rejTooShort n) := fun h => by simpa [Instr.wellFormed, encode] using h

end Sys2Proof.Laws.RowFormat
end

