-- ==== Sys2Proof/Laws/Run.lean ====
section
/-! SUPPORT. The induction over runs, said once: what every step keeps, every run keeps. -/

namespace Sys2Proof.Machine

/-- A property that every step of a machine keeps holds after any number of steps from a state that has it. -/
theorem run_keeps (M : Host.Core) {P : M.State → Prop} (keep : ∀ s t, P s → M.step s = .next t → P t) (k : Nat)
    (s t : M.State) (hs : P s) (h : M.run k s = .next t) : P t := by
  induction k generalizing s with
  | zero => cases h; exact hs
  | succ k ih =>
    rw [Host.Core.run] at h
    split at h
    · next u hu => exact ih u (keep s u hs hu) h
    · cases h
    · cases h

end Sys2Proof.Machine
end

