-- ==== Sys2Proof/Tests/Slice0.lean ====
section
/-! SUPPORT. Tests: ill-formed terms refused; each row's decoding by a word written out from the spec's encoding of it; one or two
steps per row with results taken from spec/95_test_vectors.md; and, for each statement with hypotheses, states and operands
that meet them. -/

namespace Sys2Proof.Tests

open Sys2Proof Sys2Proof.Machine

/- One theorem at a time: elaborated side by side, the tests' threads together ask for more memory than the check allows. -/
set_option Elab.async false

/-! ### Helpers -/

/-- One field of the next state. -/
def field {α : Type} (r : Result) (f : State → α) : Option α :=
  match r with
  | .next t => some (f t)
  | .fault _ => none
  | .refused _ => none

/-- A created component, started at 100 ms. -/
def sys : State := { State.reset with mode := .system, started := true, lastActivity := 100, now := 100 }

/-- A run of the block alone with these bytes buffered. -/
def holding (bytes : List Byte) : State := { State.reset.setWindow bytes with mode := .blockAlone }

/-- The hysteresis test in binary64 with no change of exactly 10 mm passing. -/
def plainHyst : HystTest := ⟨.binary64, fun _ _ _ => false, fun _ _ _ => false⟩

/-- M1000 of spec/95_test_vectors.md. -/
def m1000 : List Byte :=
  [0xA5, 0x03, 0x20, 0x01, 0x01, 0x00, 0x0E, 0x00, 0x00, 0x00, 0x00, 0x00, 0x00, 0xE8, 0x03, 0x00, 0x00, 0x00, 0x00, 0x00,
   0x00, 0x96, 0x8B]

/-- MNT of spec/95_test_vectors.md. -/
def mnt : List Byte :=
  [0xA5, 0x03, 0x20, 0x01, 0x01, 0x00, 0x0E, 0x00, 0x00, 0x00, 0x00, 0x00, 0x00, 0xFF, 0xFF, 0x00, 0x00, 0x00, 0x00, 0x00,
   0x00, 0x73, 0xF7]

/-- The frame of V-DEC-6. -/
def short13 : List Byte :=
  [0xA5, 0x03, 0x20, 0x01, 0x01, 0x00, 0x0D, 0x00, 0x00, 0x00, 0x00, 0x00, 0x00, 0x00, 0x00, 0x00, 0x00, 0x00, 0x00, 0x00,
   0xB4, 0xA3]

/-- The first 22 bytes of BAD. -/
def bad22 : List Byte := m1000.take 22

/-- The payload of M1000. -/
def p1000 : List Byte := [0x00, 0x00, 0x00, 0x00, 0x00, 0x00, 0xE8, 0x03, 0x00, 0x00, 0x00, 0x00, 0x00, 0x00]

/-- The payload of MNT. -/
def pNone : List Byte := [0x00, 0x00, 0x00, 0x00, 0x00, 0x00, 0xFF, 0xFF, 0x00, 0x00, 0x00, 0x00, 0x00, 0x00]

/-! ### Well-formedness: an ill-formed term for each check -/

theorem test_wf_distance_short : (Instr.frameDistance 0x01 (p1000.take 13)).wellFormed = false := by decide +kernel
theorem test_wf_distance_long : (Instr.frameDistance 0x01 (List.replicate 33 0)).wellFormed = false := by decide +kernel
theorem test_wf_distance_sentinel : (Instr.frameDistance 0x01 pNone).wellFormed = false := by decide +kernel
theorem test_wf_no_target_value : (Instr.frameNoTarget 0x01 p1000).wellFormed = false := by decide +kernel
theorem test_wf_no_target_short : (Instr.frameNoTarget 0x01 (pNone.take 13)).wellFormed = false := by decide +kernel
theorem test_wf_no_target_long : (Instr.frameNoTarget 0x01 (List.replicate 33 0xFF)).wellFormed = false := by decide +kernel
theorem test_wf_insufficient : (Instr.frameInsufficient 0x01 p1000).wellFormed = false := by decide +kernel
theorem test_wf_header : (Instr.rejHeaderMismatch 0xA5 0x03 0x20 0x01).wellFormed = false := by decide +kernel
theorem test_wf_oversized : (Instr.rejOversizedPayloadField 0x01 32).wellFormed = false := by decide +kernel
theorem test_wf_too_large : (Instr.rejFrameTooLarge 0x01 55).wellFormed = false := by decide +kernel
theorem test_wf_checksum : (Instr.rejChecksumMismatch 0x01 p1000 0x968B).wellFormed = false := by decide +kernel
theorem test_wf_checksum_long : (Instr.rejChecksumMismatch 0x01 (List.replicate 33 0) 0).wellFormed = false := by decide +kernel
theorem test_wf_too_short : (Instr.rejTooShort 9).wellFormed = false := by decide +kernel

/-! ### Decoding, by words written out from rules R45, R46, R49 and R54 -/

theorem test_decode_byte : decodeOp 0b000010100101 = .ok (.byte 0xA5) := by decide +kernel
theorem test_decode_reset : decodeOp 0b000100000000 = .ok .reset := by decide +kernel
theorem test_decode_init : decodeOp 0b100000000000 = .ok .init := by decide +kernel
theorem test_decode_rxTick : decodeOp 0b100100000000 = .ok .rxTick := by decide +kernel
theorem test_decode_lmTick : decodeOp 0b101000000000 = .ok .lmTick := by decide +kernel
theorem test_decode_diag : decodeOp 0b101100000000 = .ok .diag := by decide +kernel
theorem test_decode_reserved : decodeOp 0b110000000000 = .error (.reservedOpcode 0xC) := by decide +kernel
theorem test_decode_data : decodeOp 0b101100000001 = .error (.nonzeroData 0xB) := by decide +kernel
theorem test_decode_distance : decodeFront m1000 = .ok (.frameDistance 0x01 p1000) := by decide +kernel
theorem test_decode_noTarget : decodeFront mnt = .ok (.frameNoTarget 0x01 pNone) := by decide +kernel
theorem test_decode_insufficient : decodeFront short13 = .ok (.frameInsufficient 0x01 (List.replicate 13 0)) := by decide +kernel
theorem test_decode_startCmd :
    decodeCommand [0xA5, 0x03, 0x20, 0x01, 0x00, 0x00, 0x00, 0x02, 0x6E] = .ok .startCmd := by decide +kernel
theorem test_decode_header :
    decodeFront [0x00, 0xA5, 0x03, 0x20, 0x01, 0x01, 0x00] = .ok (.rejHeaderMismatch 0x00 0xA5 0x03 0x20) := by decide +kernel
theorem test_decode_oversized :
    decodeFront [0xA5, 0x03, 0x20, 0x01, 0x01, 0x01, 0x00] = .ok (.rejOversizedPayloadField 0x01 0x0100) := by decide +kernel
theorem test_decode_tooLarge :
    classifyFront 56 64 [0xA5, 0x03, 0x20, 0x01, 0x01, 0x00, 0x38] = .ok (.rejFrameTooLarge 0x01 56) := by decide +kernel
theorem test_decode_checksum :
    decodeFront (bad22 ++ [0x8A]) = .ok (.rejChecksumMismatch 0x01 p1000 0x968A) := by decide +kernel
theorem test_decode_tooShort : decodeCandidate 8 = .ok (.rejTooShort 8) := by decide +kernel
/-- The table's numbering: an operation word in 16 bits, a length in 8, the start command in 72, the first byte lowest. -/
theorem test_decodeTableWord :
    decodeTableWord 16 0x0A5 = some (.byte 0xA5) ∧ decodeTableWord 16 0x1B00 = none ∧
    decodeTableWord 8 3 = some (.rejTooShort 3) ∧ decodeTableWord 72 0x6E02000000012003A5 = some .startCmd ∧
    decodeTableWord 56 0x2100010120 = some (.rejHeaderMismatch 0x20 0x01 0x01 0x00) := by decide +kernel

/-! ### The checksum and the decoder (V-CRC, V-DEC) -/

theorem test_crc_empty : crc16 [] = 0xFFFF := by decide +kernel
theorem test_crc_start : crc16 [0xA5, 0x03, 0x20, 0x01, 0x00, 0x00, 0x00] = 0x026E := by decide +kernel
theorem test_crc_check : crc16 [0x31, 0x32, 0x33, 0x34, 0x35, 0x36, 0x37, 0x38, 0x39] = 0x4B37 := by decide +kernel
theorem test_crc_order : crc16 [0x01, 0x02] = 0xE181 ∧ crc16 [0x02, 0x01] = 0x10C1 := by decide +kernel
theorem test_dec_checksum_first :
    decodeFrame (mnt.take 22 ++ [0xF6]) = some (.error (.checksumMismatch 0x73F7 0x73F6)) := by decide +kernel
theorem test_dec_swapped :
    decodeFrame (m1000.take 21 ++ [0x8B, 0x96]) = some (.error (.checksumMismatch 0x968B 0x8B96)) := by decide +kernel
theorem test_dec_alone : decodeAlone [0xA5, 0x03, 0x20, 0x01, 0x00, 0x00, 0x00, 0x02] = .error .notACandidate := by decide +kernel

/-! ### The buffer (V-FB) -/

theorem test_append_last : (append 0x20 (List.replicate 63 0)).map List.length = some 64 := by decide +kernel
theorem test_append_full : append 0x20 (List.replicate 64 0) = none := by decide +kernel
theorem test_drop : dropFront 1 [0x00, 0xA5, 0x03] = .ok [0xA5, 0x03] := by decide +kernel
theorem test_drop_past : dropFront 3 [0xA5, 0x03] = .error .dropPastEnd := by decide +kernel
theorem test_read_past : readByte 7 (m1000.take 7) = .error .unwrittenRead := by decide +kernel
theorem test_readU16be : readU16be 5 (m1000.take 7) = .ok 0x000E := by decide +kernel

/-! ### One step of each row -/

/-- The example of rule R68: the seventh byte of M1000 gives no event. -/
theorem test_byte_waits :
    field (exec (.byte 0x0E) (holding (m1000.take 6))) (fun t => (t.len, t.trace)) = some (7, []) := by decide +kernel
/-- V-SYNC-5: the last byte of BAD. -/
theorem test_byte_resync :
    field (exec (.byte 0x8A) (holding bad22)) (fun t => (t.window, t.trace.map eventCode)) =
      some ([0x00, 0x00, 0x00, 0x00, 0x96, 0x8A], 0xC :: List.replicate 16 0x9) := by decide +kernel
/-- V-RST-1. -/
theorem test_reset :
    field (exec .reset { sys.setWindow (m1000.take 8) with lastActivity := 700, lastPublished := .distance ⟨1000⟩ })
      (fun t => (t.len, t.started, t.lastActivity, t.lastPublished)) = some (0, false, 0, .unset) := by decide +kernel
/-- V-LM-1. -/
theorem test_init :
    field (exec .init { State.reset with now := 100 }) (fun t => (t.started, t.lastActivity, t.line)) =
      some (true, 100, START_CMD) := by decide +kernel
theorem test_init_again : field (exec .init sys) State.now = none := by decide +kernel
/-- V-LM-6: the start command echoed is activity. -/
theorem test_rxTick_echo :
    field (rxTickWith (fun _ => false) plainHyst { sys with rxq := START_CMD, now := 5000 })
      (fun t => (t.lastActivity, t.published, t.rxq)) = some (5000, [], []) := by decide +kernel
/-- D15: a `None` ends the tick and consumes nothing. -/
theorem test_rxTick_none :
    field (rxTickWith (fun n => n == 2) plainHyst { sys with rxq := [0x01, 0x02, 0x03] })
      (fun t => (t.window, t.rxq)) = some ([0x01, 0x02], [0x03]) := by decide +kernel
/-- V-LM-2: exactly 10000 ms. -/
theorem test_lmTick_boundary :
    field (lmTickWith none { sys with now := 10100 }) (fun t => (t.trace, t.lastActivity)) = some ([], 100) := by decide +kernel
/-- V-LM-3: 10001 ms. -/
theorem test_lmTick_timeout :
    field (lmTickWith none { sys with now := 10101 }) (fun t => (t.trace, t.lastActivity, t.line)) =
      some ([.linkTimeout], 10101, START_CMD) := by decide +kernel
/-- L1-10. -/
theorem test_diag : field (exec .diag sys) State.diagLog = some [⟨64, true, 10000, ⟨10⟩⟩] := by decide +kernel
theorem test_startCmd : field (exec .startCmd { sys with now := 7 }) (fun t => (t.line, t.lastActivity)) =
    some ([0xA5, 0x03, 0x20, 0x01, 0x00, 0x00, 0x00, 0x02, 0x6E], 7) := by decide +kernel
/-- V-FB-5: the frame goes, the byte behind it stays. -/
theorem test_frameDistance :
    field (exec (.frameDistance 0x01 p1000) (holding (m1000 ++ [0xA5]))) (fun t => (t.window, t.trace)) =
      some ([0xA5], [.frameDistance 1000]) := by decide +kernel
theorem test_frameNoTarget :
    field (exec (.frameNoTarget 0x01 pNone) (holding mnt)) (fun t => (t.window, t.trace)) = some ([], [.frameNoTarget]) := by
  decide +kernel
theorem test_frameInsufficient :
    field (exec (.frameInsufficient 0x01 (List.replicate 13 0)) (holding short13)) (fun t => (t.window, t.trace)) =
      some ([], [.frameInsufficient]) := by decide +kernel
/-- V-SYNC-3, byte 6. -/
theorem test_rejHeaderMismatch :
    field (exec (.rejHeaderMismatch 0x00 0xA5 0x03 0x20) (holding (0x00 :: m1000.take 6))) (fun t => (t.window, t.trace)) =
      some (m1000.take 6, [.headerMismatch 0x00]) := by decide +kernel
/-- V-SYNC-7, byte 6. -/
theorem test_rejOversized :
    field (exec (.rejOversizedPayloadField 0x01 33) (holding [0xA5, 0x03, 0x20, 0x01, 0x01, 0x00, 0x21]))
      (fun t => (t.len, t.trace)) = some (6, [.oversizedPayloadField 33]) := by decide +kernel
theorem test_rejFrameTooLarge :
    field (exec (.rejFrameTooLarge 0x01 56) (holding (List.replicate 10 0))) (fun t => (t.len, t.trace)) =
      some (0, [.frameTooLarge 65]) := by decide +kernel
/-- V-SYNC-13: the checksum bytes swapped. -/
theorem test_rejChecksumMismatch :
    field (exec (.rejChecksumMismatch 0x01 p1000 0x8B96) (holding (m1000.take 21 ++ [0x8B, 0x96])))
      (fun t => (t.window, t.trace.head?)) =
      some ([0x00, 0x00, 0x00, 0x00, 0x8B, 0x96], some (.checksumMismatch 0x968B 0x8B96)) := by decide +kernel
theorem test_rejTooShort :
    field (exec (.rejTooShort 8) (holding (List.replicate 7 0))) (fun t => (t.len, t.trace)) = some (6, [.tooShort 8]) := by
  decide +kernel

/-! ### The publisher (V-PUB) and the stimulus text (rule R56) -/

/-- V-PUB-7: 1000, 1005, 1009, 1011 mm publish 1000 and 1011. -/
theorem test_publish_drift :
    (deliverAll plainHyst [.frameDistance 1000, .frameDistance 1005, .frameDistance 1009, .frameDistance 1011]
      sys).published = [.metres ⟨1000⟩, .metres ⟨1011⟩] := by decide +kernel
/-- V-PUB-4 and V-PUB-6. -/
theorem test_publish_no_target :
    (deliverAll plainHyst [.frameDistance 1000, .frameNoTarget, .frameNoTarget, .frameDistance 1000] sys).published =
      [.metres ⟨1000⟩, .nan, .metres ⟨1000⟩] := by decide +kernel
/-- V-PUB-5, the rows of a change of 10 mm. -/
theorem test_float_hysteresis :
    ([(1000, 1010), (0, 10), (500, 510), (2000, 2010), (1010, 1000), (65524, 65534)].map fun d =>
      (hysteresisOnFloats .binary64 d.1 d.2, hysteresisOnFloats .binary32 d.1 d.2)) =
      [(some true, some false), (some true, some true), (some true, some false), (some false, some false), (some true, some false),
        (some true, some false)] := by decide +kernel
/-- V-PUB-6, its last publication: 0 mm is 0.0 m, in a format the spec does not evaluate too. -/
theorem test_zero_metres : ([.binary32, .binary64, .other 3].map fun fmt => metreFloat fmt ⟨0⟩) = [⟨0, 1⟩, ⟨0, 1⟩, ⟨0, 1⟩] := by
  decide +kernel
/-- A format rule R107 does not evaluate: its own free answer, with a draw, even for a change of 1 mm. -/
theorem test_publish_other_format :
    let s := deliverAll ⟨.other 3, fun _ _ _ => false, fun _ d0 d1 => decide (d0 < d1)⟩
      [.frameDistance 1000, .frameDistance 1001, .frameDistance 1000] sys
    s.published = [.metres ⟨1000⟩, .metres ⟨1001⟩] ∧ s.draws = 2 := by decide +kernel
/-- A queue of depth 3 that holds two bytes takes one of two that arrive (rule R133). -/
theorem test_enqueue_full :
    enqueue (some 3) [0x01, 0x02] [0x03, 0x04] = [0x01, 0x02, 0x03] ∧ enqueue (some 2) [0x01, 0x02] [0x03] = [0x01, 0x02] ∧
    enqueue none [0x01] [0x02] = [0x01, 0x02] := by decide +kernel
/-- V-RX-1: the second of two ticks emits and publishes the second frame. -/
theorem test_rxTick_publishes :
    field (rxTickWith (fun _ => false) plainHyst { sys with rxq := m1000 ++ [0xA5], now := 200 })
      (fun t => (t.published, t.lastActivity, t.len)) = some ([.metres ⟨1000⟩], 200, 1) := by decide +kernel
theorem test_readLine :
    readLine ['a', ':', ' ', 'R', 'X', '_', 'T', 'I', 'C', 'K', ' ', '@', '5', '0', ' ', ';', 'x'] = some (.rxTick (some 50)) := by
  decide +kernel
/-- Rule R57: `MEAS 1000` is M1000; a payload of 33 bytes and a decreasing clock are refused. -/
theorem test_stimulus :
    measStimulus 1000 0x01 = some m1000 ∧ frameStimulus 0x01 (List.replicate 33 0) = none ∧
    loadProgram [.init 5, .lmTick 4] State.reset = none := by decide +kernel

/-- Codes of rule R113: successes below 8, errors from 8, the timeout E. -/
theorem test_event_codes :
    [Event.frameDistance 5, .frameNoTarget, .frameInsufficient, .bufferOverflow, .headerMismatch 0, .oversizedPayloadField 33,
      .frameTooLarge 65, .checksumMismatch 0 1, .tooShort 8, .linkTimeout].map eventCode =
      [0x1, 0x2, 0x3, 0x8, 0x9, 0xA, 0xB, 0xC, 0xD, 0xE] := rfl

/-! ### How a program comes to run, and the placing of a table word -/

/-- Each row of the table that a step can decode runs as the next step after reset. -/
theorem test_placed_rows_run :
    ([(16, 0x000), (16, 0x100), (16, 0x800), (16, 0x900), (16, 0xA00), (16, 0xB00), (72, 0x6E02000000012003A5), (8, 0),
      (32, 0), (56, 0x012003A5), (56, 0x210000012003A5)].all fun p =>
        (field (step (State.reset.withFetchWord p.1 p.2)) State.draws).isSome) = true := by decide +kernel

/-! ### For each statement with hypotheses, states and operands that meet them -/

/-- A created component whose link was never started. -/
def sysUnsent : State := { State.reset with mode := .system, now := 7 }

/-- A next state of BYTE from any state. -/
theorem byte_completes (s : State) (b : Byte) : ∃ t, exec (.byte b) s = .next t := by
  obtain ⟨_, _, t, _, ht, _⟩ := byteWith_spec Config.hyst b s
  exact ⟨t, ht⟩

theorem witness_EncodeThenDecode :
    (Instr.frameDistance 0x01 p1000).wellFormed = true ∧ (∀ t l, Instr.frameDistance 0x01 p1000 ≠ .rejFrameTooLarge t l) ∧
    (Instr.frameNoTarget 0x01 pNone).wellFormed = true ∧ (Instr.frameInsufficient 0x01 (p1000.take 13)).wellFormed = true ∧
    (Instr.rejTooShort 8).wellFormed = true ∧ (Instr.rejOversizedPayloadField 0x01 33).wellFormed = true := by
  refine ⟨by decide +kernel, by simp, by decide +kernel, by decide +kernel, by decide +kernel, by decide +kernel⟩

theorem witness_FrameTooLargeDecodes : CAP < totalLength 56 ∧ ¬ CAP < totalLength 55 := by decide +kernel

theorem witness_OperationWordsAreTheTable : decodeOp 0x0FF = .ok (.byte 0xFF) ∧ decodeOp 0xB00 = .ok .diag := by
  decide +kernel

theorem witness_OtherWordsRefused :
    ({ State.reset with port := [.op 0x200] } : State).port = .op 0x200 :: [] ∧
    ([0x200, 0x7FF, 0xC00, 0xFFF].all fun w : BitVec 12 =>
      decide ((2 ≤ (w >>> 8).toNat ∧ (w >>> 8).toNat ≤ 7) ∨ 0xC ≤ (w >>> 8).toNat)) = true ∧
    ([0x101, 0x1FF, 0x801, 0xBFF].all fun w : BitVec 12 =>
      decide (((w >>> 8).toNat = 1 ∨ (8 ≤ (w >>> 8).toNat ∧ (w >>> 8).toNat ≤ 0xB)) ∧ w.extractLsb' 0 8 ≠ 0)) = true := by
  decide +kernel

/-- One list for each clause: 8 bytes; BAD; a valid frame with `L = 13`; MNT; M1000. -/
theorem witness_DecodeOrder :
    (m1000.take 8).length < 9 ∧
    (9 ≤ (bad22 ++ [0x8A]).length ∧ receivedCrc (bad22 ++ [0x8A]) = some 0x968A ∧
      crc16 ((bad22 ++ [0x8A]).take 21) ≠ 0x968A) ∧
    (receivedCrc short13 = some (crc16 (short13.take (short13.length - 2))) ∧ lengthField short13 = some 13) ∧
    (receivedCrc mnt = some (crc16 (mnt.take (mnt.length - 2))) ∧ lengthField mnt = some 14 ∧ mnt[13]? = some 0xFF ∧
      mnt[14]? = some 0xFF) ∧
    (receivedCrc m1000 = some (crc16 (m1000.take (m1000.length - 2))) ∧ m1000[13]? = some 0xE8 ∧ m1000[14]? = some 0x03) := by
  decide +kernel

theorem witness_StepRunsDecoded :
    decodeOp 0x100 = .ok .reset ∧ decodeCommand START_CMD = .ok .startCmd ∧ decodeCandidate 0 = .ok (.rejTooShort 0) ∧
    (holding mnt).port = [] ∧ decodeFront (holding mnt).window = .ok (.frameNoTarget 0x01 pNone) ∧
    ({ State.reset with port := [.op 0x100] } : State).port = .op 0x100 :: [] ∧
    ({ State.reset with port := [.command START_CMD] } : State).port = .command START_CMD :: [] ∧
    ({ State.reset with port := [.candidate 0] } : State).port = .candidate 0 :: [] := by decide +kernel

theorem witness_StepTransport :
    (({ sys with port := [.clock 100] } : State).port = .clock 100 :: [] ∧ sys.now ≤ 100) ∧
    (({ sys with port := [.clock 99] } : State).port = .clock 99 :: [] ∧ 99 < sys.now) ∧
    ({ sys with port := [.receive [1]] } : State).port = .receive [1] :: [] ∧
    (([1] : List Byte).length + ([2] : List Byte).length ≤ 2 ∧ 1 ≤ ([1] : List Byte).length ∧ ([1] : List Byte).length ≤ 1) ∧
    sys.port = [] ∧ stable sys.window = true := by decide +kernel

/-- One list for each clause: 6 bytes; 7 bytes without the header; `L = 33`; 22 of 23 bytes; M1000; MNT; `L = 13`; BAD. -/
theorem witness_LoopPasses :
    (m1000.take 6).length < 7 ∧
    ((0x00 : Byte) :: m1000.take 6 = 0x00 :: m1000.take 6 ∧ 7 ≤ ((0x00 : Byte) :: m1000.take 6).length ∧
      ((0x00 : Byte) :: m1000.take 6).take 4 ≠ [0xA5, 0x03, 0x20, 0x01]) ∧
    33 ≤ (33 : Half).toNat ∧
    (bad22 = [0xA5, 0x03, 0x20, 0x01] ++ 0x01 :: be16 14 ++ bad22.drop 7 ∧ (14 : Half).toNat ≤ 32 ∧
      bad22.length < 9 + (14 : Half).toNat) ∧
    (m1000 = [0xA5, 0x03, 0x20, 0x01] ++ 0x01 :: be16 14 ++ m1000.drop 7 ∧ 9 + (14 : Half).toNat ≤ m1000.length ∧
      decodeFrame (m1000.take 23) = some (.ok (.distance 1000))) ∧
    (mnt = [0xA5, 0x03, 0x20, 0x01] ++ 0x01 :: be16 14 ++ mnt.drop 7 ∧ decodeFrame (mnt.take 23) = some (.ok .noTarget)) ∧
    (short13 = [0xA5, 0x03, 0x20, 0x01] ++ 0x01 :: be16 13 ++ short13.drop 7 ∧
      decodeFrame (short13.take 22) = some (.ok .insufficient)) ∧
    decodeFrame ((bad22 ++ [0x8A]).take 23) = some (.error (.checksumMismatch 0x968B 0x968A)) := by decide +kernel

theorem witness_DecodeAloneRefuses :
    (14 : Half).toNat ≤ 32 ∧ 9 + (14 : Half).toNat ≤ (HDR ++ 0x01 :: be16 14 ++ m1000.drop 7).length := by decide +kernel

theorem witness_MeasDecodes : 0 ≤ 65535 ∧ 65534 ≤ 65535 ∧ 65535 ≤ 65535 := by decide

theorem witness_ResetResult : ({ sys with mode := .system } : State).mode = .system := rfl

theorem witness_ByteResult :
    (holding (List.replicate 63 0)).window.length < 64 ∧ 64 ≤ (holding (List.replicate 64 0)).window.length := by decide +kernel

theorem witness_ShortBufferWaits : (holding (m1000.take 5)).window.length + 1 < 7 := by decide +kernel

theorem witness_UnfinishedFrameWaits :
    (holding (m1000.take 21)).window ++ [0x96] = HDR ++ 0x01 :: be16 14 ++ ((m1000.take 22).drop 7) ∧ (14 : Half).toNat ≤ 32 ∧
    ((holding (m1000.take 21)).window ++ [0x96]).length < 9 + (14 : Half).toNat := by decide +kernel

theorem witness_ByteFrame :
    (∃ t, exec (.byte 0x8B) (holding (m1000.take 22)) = .next t) ∧ (holding (m1000.take 22)).mode ≠ .fresh ∧
    (holding (m1000.take 22)).mode ≠ .system ∧ ∃ t, exec (.byte 0x8B) sys = .next t :=
  ⟨byte_completes _ _, by decide, by decide, byte_completes _ _⟩

theorem witness_ByteLeavesStable : ∃ t, exec (.byte 0x00) (holding (List.replicate 63 0xA5)) = .next t := byte_completes _ _

theorem witness_ByteEventBound :
    stable (holding bad22).window = true ∧ ∃ t, exec (.byte 0x8A) (holding bad22) = .next t :=
  ⟨by decide +kernel, byte_completes _ _⟩

theorem witness_UnreachableEvents :
    stable (holding bad22).window = true ∧ ∃ t, exec (.byte 0x8A) (holding bad22) = .next t :=
  ⟨by decide +kernel, byte_completes _ _⟩

theorem witness_FrameDistanceResult :
    14 ≤ p1000.length ∧ p1000.length ≤ 32 ∧ p1000[6]? = some 0xE8 ∧ p1000[7]? = some 0x03 ∧
    ¬ ((0xE8 : Byte) = 0xFF ∧ (0x03 : Byte) = 0xFF) ∧ 9 + p1000.length ≤ (holding m1000).window.length := by decide +kernel

theorem witness_FrameNoTargetResult :
    14 ≤ pNone.length ∧ pNone.length ≤ 32 ∧ pNone[6]? = some 0xFF ∧ pNone[7]? = some 0xFF ∧
    9 + pNone.length ≤ (holding mnt).window.length := by decide +kernel

theorem witness_FrameInsufficientResult :
    (p1000.take 13).length ≤ 13 ∧ 9 + (p1000.take 13).length ≤ (holding short13).window.length := by decide +kernel

theorem witness_HeaderMismatchResult :
    [0xA5, 0x03, 0x20, 0x00] ≠ HDR ∧ (holding [0xA5, 0x03]).window = 0xA5 :: [0x03] := by decide +kernel

theorem witness_OversizedResult : 33 ≤ (33 : Half).toNat ∧ (holding [0xA5, 0x03]).window = 0xA5 :: [0x03] := by decide +kernel

theorem witness_FrameTooLargeResult : 64 < 7 + (56 : Half).toNat + 2 := by decide +kernel

theorem witness_ChecksumMismatchResult :
    p1000.length ≤ 32 ∧ crc16 (HDR ++ 0x01 :: be16 (BitVec.ofNat 16 p1000.length) ++ p1000) ≠ 0x968A ∧
    (holding (bad22 ++ [0x8A])).window = 0xA5 :: (bad22 ++ [0x8A]).drop 1 := by decide +kernel

theorem witness_TooShortResult : 8 < 9 ∧ (holding [0xA5, 0x03]).window = 0xA5 :: [0x03] := by decide +kernel

/-- Each row outside its constraint; the frame rows one byte short of their frame; the others on an empty window. -/
theorem witness_RowsStop :
    ((Instr.frameDistance 0x01 pNone).wellFormed = false ∧ (Instr.frameNoTarget 0x01 p1000).wellFormed = false ∧
      (Instr.frameInsufficient 0x01 p1000).wellFormed = false ∧ (Instr.rejHeaderMismatch 0xA5 0x03 0x20 0x01).wellFormed = false ∧
      (Instr.rejOversizedPayloadField 0x01 32).wellFormed = false ∧ (Instr.rejFrameTooLarge 0x01 55).wellFormed = false ∧
      (Instr.rejChecksumMismatch 0x01 p1000 0x968B).wellFormed = false ∧ (Instr.rejTooShort 9).wellFormed = false) ∧
    ((Instr.frameDistance 0x01 p1000).wellFormed = true ∧ (holding bad22).window.length < 9 + p1000.length) ∧
    ((Instr.frameNoTarget 0x01 pNone).wellFormed = true ∧ (holding (mnt.take 22)).window.length < 9 + pNone.length) ∧
    ((Instr.frameInsufficient 0x01 (p1000.take 13)).wellFormed = true ∧
      (holding (short13.take 21)).window.length < 9 + (p1000.take 13).length) ∧
    (Instr.rejHeaderMismatch 0xA5 0x03 0x20 0x00).wellFormed = true ∧ (Instr.rejOversizedPayloadField 0x01 33).wellFormed = true ∧
    (Instr.rejChecksumMismatch 0x01 p1000 0x968A).wellFormed = true ∧ (Instr.rejTooShort 8).wellFormed = true ∧
    State.reset.window = [] := by decide +kernel

theorem witness_RowFrame :
    ∃ t, exec (.rejTooShort 8) (holding [0xA5]) = .next t ∧ (holding [0xA5]).mode ≠ .fresh ∧ (holding [0xA5]).mode ≠ .system :=
  ⟨_, rfl, by decide, by decide⟩

theorem witness_ValidFrameDecodes :
    p1000.length ≤ 32 ∧ 14 ≤ p1000.length ∧ p1000[6]? = some 0xE8 ∧ p1000[7]? = some 0x03 ∧ (p1000.take 13).length ≤ 13 := by
  decide +kernel

theorem witness_OneGarbageByteRecovers : (List.replicate 32 (0x00 : Byte)).length ≤ 32 := by decide +kernel

theorem witness_BatchingIrrelevant :
    sys.mode = .system ∧ (m1000.take 10).length ≤ 32 ∧ (m1000.drop 10).length ≤ 32 ∧
    (m1000.take 10 ++ m1000.drop 10).length ≤ 32 := by decide +kernel

theorem witness_OneByteErrorDetected :
    (0x03 : Byte) ≠ 0x02 ∧ crcOk ([0xA5] ++ 0x03 :: [0x20, 0x01, 0x00, 0x00, 0x00] ++ be16 0x026E) = true := by decide +kernel

theorem witness_InitFirstOnce :
    State.reset.mode = .fresh ∧ (holding []).mode ≠ .fresh ∧ sys.mode ≠ .fresh ∧ (holding []).mode ≠ .system ∧
    State.reset.mode ≠ .system := by decide +kernel

theorem witness_SendStartResult : sys.mode = .system := rfl

/-- On a system run: a link never started, and, on any clock, one that was active just now. -/
theorem witness_LmTickResult_quiet :
    sysUnsent.mode = .system ∧ sysUnsent.started = false ∧ sys.mode = .system ∧ sys.started = true ∧
    elapsed Config.clockBits sys.now sys.lastActivity ≤ 10000 := by
  refine ⟨rfl, rfl, rfl, rfl, ?_⟩
  cases h : Config.clockBits <;> simp [elapsed, sys]

/-- On the unbounded clock, and on one of 14 bits, 10001 ms are a timeout and 10000 are not. -/
theorem witness_LmTickResult_timeout :
    10000 < elapsed none 10101 100 ∧ elapsed none 10100 100 ≤ 10000 ∧ 10000 < elapsed (some 14) 10101 100 ∧
    elapsed (some 14) 10100 100 ≤ 10000 := by decide +kernel

theorem witness_OneTimeoutPerInterval :
    ({ sys with now := 10101 } : State).mode = .system ∧ ({ sys with now := 10101 } : State).started = true ∧
    10000 < ({ sys with now := 10101 } : State).now - sys.lastActivity ∧ 10101 ≤ 20101 ∧ 20101 ≤ 10101 + 10000 ∧
    10101 + 10000 < 20102 := by decide +kernel

theorem witness_DiagResult : sys.mode = .system := rfl

/-- A system run; an empty queue, and a queued byte with a read that answers `None` and one that answers the byte. -/
theorem witness_RxTickResult :
    ({ sys with rxq := m1000 } : State).mode = .system ∧ sys.rxq = [] ∧
    ({ sys with rxq := m1000 } : State).rxq = 0xA5 :: m1000.drop 1 ∧ (fun n => n == 0) sys.draws = true ∧
    (fun n => n == 1) sys.draws = false := by decide +kernel

theorem witness_RxTickConsumes : ({ sys with rxq := m1000 ++ m1000 } : State).mode = .system := rfl

theorem witness_RxTickFrame : exec .rxTick sys = .next sys ∧ sys.rxq = [] := ⟨rfl, rfl⟩

theorem witness_EnvironmentFrame :
    (∃ t, exec .diag sys = .next t) ∧ (∃ t, exec .startCmd sys = .next t) ∧ ∃ t, exec .lmTick sysUnsent = .next t :=
  ⟨⟨_, rfl⟩, ⟨_, rfl⟩, ⟨_, rfl⟩⟩

theorem witness_ActivityRefreshed : isSuccess (.frameDistance 5) = true ∧ isSuccess .linkTimeout = false := ⟨rfl, rfl⟩

theorem witness_NoTargetPublishes :
    sys.lastPublished ≠ .noTarget ∧ ({ sys with lastPublished := .noTarget } : State).lastPublished = .noTarget := by decide +kernel

/-- From Unset; in binary64 from 1000 mm the changes of 11, 9 and 10 mm, upwards and downwards; and in another format. -/
theorem witness_DistancePublishes :
    sys.lastPublished = .unset ∧ ({ sys with lastPublished := .distance ⟨1000⟩ } : State).lastPublished = .distance ⟨1000⟩ ∧
    1000 + 11 ≤ (1011 : Half).toNat ∧ (989 : Half).toNat + 11 ≤ 1000 ∧
    (1000 ≤ (991 : Half).toNat + 9 ∧ (991 : Half).toNat ≤ 1000 + 9) ∧
    (1000 ≤ (1009 : Half).toNat + 9 ∧ (1009 : Half).toNat ≤ 1000 + 9) ∧
    1000 = (990 : Half).toNat + 10 ∧ (1010 : Half).toNat = 1000 + 10 ∧ (plainHyst.fmt = .binary32 ∨ plainHyst.fmt = .binary64) ∧
    ({ plainHyst with fmt := .other 3 } : HystTest).fmt = .other 3 := by decide +kernel

theorem witness_ZeroPublishedAsZero :
    (14 ≤ (List.replicate 14 (0x00 : Byte)).length ∧ (List.replicate 14 (0x00 : Byte)).length ≤ 32 ∧
      (List.replicate 14 (0x00 : Byte))[6]? = some 0x00 ∧ (List.replicate 14 (0x00 : Byte))[7]? = some 0x00) ∧
    sys.lastPublished = .unset ∧ ({ sys with lastPublished := .noTarget } : State).lastPublished = .noTarget := by decide +kernel

theorem witness_InsufficientPublishesNothing : isSuccess (.headerMismatch 0) = false := rfl

theorem witness_FloatHysteresisAgrees :
    (FloatFmt.binary32 = .binary32 ∨ FloatFmt.binary32 = .binary64) ∧ (FloatFmt.binary64 = .binary32 ∨ FloatFmt.binary64 = .binary64) ∧
    65525 ≤ 65534 ∧ 65534 ≤ 65534 ∧ changeMm 65525 65534 ≤ 9 ∧ 11 ≤ changeMm 65523 65534 ∧ 11 ≤ changeMm 11 0 := by
  decide +kernel

/-- A state other than the reset state that has the invariant: a buffered header, a started link, and a step from it. -/
theorem witness_StepKeepsInv :
    State.Inv (sys.setWindow (m1000.take 22)) ∧ ∃ t, step (sys.setWindow (m1000.take 22)) = .next t := by
  refine ⟨⟨by decide +kernel, by decide +kernel, by decide +kernel, rfl, fun _ => rfl, rfl, ?_⟩, ?_⟩
  · cases h : Config.rxqDepth <;> simp [fitsDepth, sys, State.reset]
  · refine ⟨sys.setWindow (m1000.take 22), ?_⟩
    simp only [step, runNext, runFront]
    rw [show decodeFront (State.window (sys.setWindow (m1000.take 22))) = .error .lengthKnown by decide +kernel]
    rfl

theorem witness_TraceNeverRead :
    (∃ t, exec .reset sys = .next t) ∧ exec (.rejTooShort 8) State.reset = .fault .dropPastEnd ∧
    exec .init sys = .refused .initNotFirst := ⟨⟨_, rfl⟩, rfl, rfl⟩

theorem witness_TransportUntouched : ∃ t, exec (.byte 0x8B) { sys.setWindow (m1000.take 22) with rxq := [1] } = .next t :=
  byte_completes _ _

theorem witness_OnlySendsTransmit :
    (∃ t, exec (.byte 0x8B) (sys.setWindow (m1000.take 22)) = .next t) ∧ Instr.byte 0x8B ≠ .init ∧ Instr.byte 0x8B ≠ .lmTick ∧
    Instr.byte 0x8B ≠ .startCmd := ⟨byte_completes _ _, by simp, by simp, by simp⟩

theorem witness_ConsumerSees : ∃ t, exec (.byte 0x8B) (sys.setWindow (m1000.take 22)) = .next t := byte_completes _ _

end Sys2Proof.Tests
end

section
/-! PROOFS. No operation reads the trace (rule R27): replacing the trace commutes with every update of the state, so the same
operation on a state with another trace answers the same and adds the same events. -/

namespace Sys2Proof.Machine

/-! ### A state with another trace -/

/-- The state whose event trace is `tr`, all else as it was. -/
def State.withTrace (s : State) (tr : List Event) : State := { s with trace := tr }

section
variable (s : State) (tr : List Event)

@[simp] theorem State.withTrace_started : (s.withTrace tr).started = s.started := rfl
@[simp] theorem State.withTrace_lastPublished : (s.withTrace tr).lastPublished = s.lastPublished := rfl
@[simp] theorem State.withTrace_rxq : (s.withTrace tr).rxq = s.rxq := rfl
@[simp] theorem State.withTrace_mode : (s.withTrace tr).mode = s.mode := rfl
@[simp] theorem State.withTrace_draws : (s.withTrace tr).draws = s.draws := rfl
@[simp] theorem State.withTrace_window : (s.withTrace tr).window = s.window := rfl

/-- The inactivity test does not read the trace (rule R103). -/
@[simp] theorem timedOut_withTrace (clockBits : Option Nat) :
    timedOut clockBits (s.withTrace tr) = timedOut clockBits s := rfl

/-! ### Deliveries do not read the trace -/

theorem publishNoTarget_withTrace : publishNoTarget (s.withTrace tr) = (publishNoTarget s).withTrace tr := by
  simp only [publishNoTarget, State.withTrace_lastPublished]
  split <;> rfl

theorem publishDistance_withTrace (hyst : HystTest) (d : Nat) :
    publishDistance hyst d (s.withTrace tr) = (publishDistance hyst d s).withTrace tr := by
  simp only [publishDistance, State.withTrace_lastPublished, State.withTrace_draws]
  split
  · rfl
  · rfl
  · next p _ =>
    by_cases hopen : hysteresisIsOpen hyst.fmt p.mm d <;> by_cases hpass : hysteresisPasses hyst s.draws p.mm d <;>
      simp only [hopen, hpass, if_true, Bool.false_eq_true, if_false] <;> rfl

theorem deliver_withTrace (hyst : HystTest) (e : Event) :
    deliver hyst e (s.withTrace tr) = (deliver hyst e s).withTrace tr := by
  cases e with
  | frameDistance d => exact publishDistance_withTrace s.touchActivity tr hyst d.toNat
  | frameNoTarget => exact publishNoTarget_withTrace s.touchActivity tr
  | _ => rfl

end

theorem deliverAll_withTrace (hyst : HystTest) (evs : List Event) (s : State) (tr : List Event) :
    deliverAll hyst evs (s.withTrace tr) = (deliverAll hyst evs s).withTrace tr := by
  induction evs generalizing s with
  | nil => rfl
  | cons e es ih => simp only [deliverAll, deliver_withTrace, ih]

theorem deliverInSystem_withTrace (hyst : HystTest) (evs : List Event) (s : State) (tr : List Event) :
    deliverInSystem hyst evs (s.withTrace tr) = (deliverInSystem hyst evs s).withTrace tr := by
  simp only [deliverInSystem, State.withTrace_mode]
  split
  · exact deliverAll_withTrace hyst evs s tr
  · rfl
  · rfl

/-! ### Answers that agree but for the trace they started from -/

/-- The second answer is the first one, begun with the trace `tr'` instead of `tr`: a next state with the same events added, or
the same stop. -/
def SameEvents (tr tr' : List Event) : Result → Result → Prop
  | .next t, r => ∃ evs, t.trace = tr ++ evs ∧ r = .next (t.withTrace (tr' ++ evs))
  | .fault f, r => r = .fault f
  | .refused x, r => r = .refused x

/-- An operation that does not read the trace and only adds events to it (rule R27). -/
def TraceBlind (op : State → Result) : Prop := ∀ s tr, SameEvents s.trace tr (op s) (op (s.withTrace tr))

/-- An answer without an event. -/
theorem SameEvents.of_trace_eq {tr tr' : List Event} {t : State} (h : t.trace = tr) :
    SameEvents tr tr' (.next t) (.next (t.withTrace tr')) := ⟨[], by simp [h], by simp⟩

/-- Answers that agree from a later trace agree from the trace before it. -/
theorem SameEvents.of_append {tr tr' evs : List Event} {r r' : Result} (h : SameEvents (tr ++ evs) (tr' ++ evs) r r') :
    SameEvents tr tr' r r' := by
  cases r with
  | next t =>
    obtain ⟨evs', htrace, hr⟩ := h
    exact ⟨evs ++ evs', by simp [htrace], by simp [hr]⟩
  | fault f => exact h
  | refused x => exact h

/-- A choice that does not depend on the trace. -/
theorem SameEvents.ite {tr tr' : List Event} {c : Prop} [Decidable c] {a a' b b' : Result} (ha : SameEvents tr tr' a a')
    (hb : SameEvents tr tr' b b') : SameEvents tr tr' (if c then a else b) (if c then a' else b') := by
  split
  · exact ha
  · exact hb

/-- One operation after another, unless the first stops. -/
def Result.andThen (r : Result) (op : State → Result) : Result :=
  match r with
  | .next t => op t
  | .fault f => .fault f
  | .refused x => .refused x

theorem SameEvents.andThen {tr tr' : List Event} {r r' : Result} {op : State → Result} (h : SameEvents tr tr' r r')
    (hop : TraceBlind op) : SameEvents tr tr' (Result.andThen r op) (Result.andThen r' op) := by
  cases r with
  | next t =>
    obtain ⟨evs, htrace, rfl⟩ := h
    have hrest := hop t (tr' ++ evs)
    rw [htrace] at hrest
    exact hrest.of_append
  | fault f => cases h; rfl
  | refused x => cases h; rfl

/-- Whether an environment operation is refused does not depend on the trace (rule R101). -/
theorem TraceBlind.inSystem {op : State → Result} (m : String) (h : TraceBlind op) :
    TraceBlind fun s => inSystem m s (op s) := by
  intro s tr
  by_cases hm : s.mode = .system
  · simpa [hm] using h s tr
  · have hm' : (s.withTrace tr).mode ≠ .system := hm
    simp only [inSystem_of_ne hm, inSystem_of_ne hm']
    rfl

/-! ### The operations of the block -/

/-- An operation of the block whose result on the window is `r` adds the events of `r` to any trace (rule R112). -/
theorem finishBlock_traceBlind (hyst : HystTest) (r : BlockResult) : TraceBlind fun s => finishBlock hyst s.enterBlock r := by
  intro s tr
  cases r with
  | error f => rfl
  | ok p =>
    obtain ⟨buf, evs⟩ := p
    exact ⟨evs, (deliverInSystem_deliveredFrom hyst evs _).trace,
      congrArg Host.Outcome.next (deliverInSystem_withTrace hyst evs ((s.enterBlock.setWindow buf).emit evs) (tr ++ evs))⟩

theorem byteWith_traceBlind (hyst : HystTest) (b : Byte) : TraceBlind (byteWith hyst b) :=
  fun s => finishBlock_traceBlind hyst (byteBlock b s.window) s

theorem execRow_traceBlind (m : String) (pass : Option Pass) : TraceBlind (execRow m pass) := by
  intro s tr
  cases pass with
  | none => rfl
  | some p => exact finishBlock_traceBlind Config.hyst (passThenLoop p s.window) s tr

theorem execReset_traceBlind : TraceBlind execReset := fun _ _ => .of_trace_eq rfl

/-! ### The operations of the environment -/

theorem execInit_traceBlind : TraceBlind execInit := by
  intro s tr
  simp only [execInit, State.withTrace_mode]
  split
  · exact .of_trace_eq rfl
  · rfl
  · rfl

theorem sendStart_traceBlind : TraceBlind fun s => .next s.sendStart := fun _ _ => .of_trace_eq rfl

theorem execDiag_traceBlind : TraceBlind execDiag := .inSystem "DIAG" fun _ _ => .of_trace_eq rfl

/-- LM_TICK adds at most the timeout event, and decides on the link's state and the clock alone (rule R103). -/
theorem lmTickWith_traceBlind (clockBits : Option Nat) : TraceBlind (lmTickWith clockBits) := by
  refine .inSystem "LM_TICK" fun s tr => ?_
  have timeout : SameEvents s.trace tr (.next (s.emit [.linkTimeout]).sendStart)
      (.next ((s.withTrace tr).emit [.linkTimeout]).sendStart) := ⟨[.linkTimeout], rfl, rfl⟩
  exact .ite (sendStart_traceBlind s tr) (.ite timeout (.of_trace_eq rfl))

/-- One read of the byte drain (rule R99). -/
theorem drainWith_succ_of_cons (readNone : Nat → Bool) (hyst : HystTest) (k : Nat) {s : State} {b : Byte} {rest : List Byte}
    (hq : s.rxq = b :: rest) :
    drainWith readNone hyst (k + 1) s = if readNone s.draws then .next { s with draws := s.draws + 1 }
      else Result.andThen (byteWith hyst b { s with rxq := rest, draws := s.draws + 1 }) (drainWith readNone hyst k) := by
  simp only [drainWith, hq]
  rfl

theorem drainWith_of_nil (readNone : Nat → Bool) (hyst : HystTest) (k : Nat) {s : State} (hq : s.rxq = []) :
    drainWith readNone hyst k s = .next s := by
  cases k <;> simp only [drainWith, hq]

/-- A read of the byte drain is decided by the queue and the draws, and a byte it feeds adds the same events (rule R99). -/
theorem drainWith_traceBlind (readNone : Nat → Bool) (hyst : HystTest) (k : Nat) : TraceBlind (drainWith readNone hyst k) := by
  induction k with
  | zero => exact fun _ _ => .of_trace_eq rfl
  | succ k ih =>
    intro s tr
    cases hq : s.rxq with
    | nil =>
      rw [drainWith_of_nil _ _ _ hq, drainWith_of_nil _ _ _ (s := s.withTrace tr) hq]
      exact .of_trace_eq rfl
    | cons b rest =>
      rw [drainWith_succ_of_cons _ _ _ hq, drainWith_succ_of_cons _ _ _ (s := s.withTrace tr) hq]
      exact .ite (.of_trace_eq rfl) ((byteWith_traceBlind hyst b { s with rxq := rest, draws := s.draws + 1 } tr).andThen ih)

/-! ### Every instruction -/

/-- No instruction reads the trace (rule R27). -/
theorem exec_traceBlind (i : Instr) : TraceBlind (exec i) := by
  cases i with
  | byte b => exact byteWith_traceBlind Config.hyst b
  | reset => exact execReset_traceBlind
  | init => exact execInit_traceBlind
  | rxTick => exact .inSystem "RX_TICK" (drainWith_traceBlind Config.readNone Config.hyst RX_CAP)
  | lmTick => exact lmTickWith_traceBlind Config.clockBits
  | diag => exact execDiag_traceBlind
  | startCmd => exact .inSystem "START_CMD" sendStart_traceBlind
  | frameDistance t p => exact execRow_traceBlind _ _
  | frameNoTarget t p => exact execRow_traceBlind _ _
  | frameInsufficient t p => exact execRow_traceBlind _ _
  | rejHeaderMismatch h0 h1 h2 h3 => exact execRow_traceBlind _ _
  | rejOversizedPayloadField t l => exact execRow_traceBlind _ _
  | rejFrameTooLarge t l => exact execRow_traceBlind _ _
  | rejChecksumMismatch t p x => exact execRow_traceBlind _ _
  | rejTooShort n => exact execRow_traceBlind _ _

/-- Settles O56: each of the three outcomes is a case of `exec_traceBlind`. -/
theorem traceNeverRead : Obligations.TraceNeverRead := by
  intro i s tr
  have h := exec_traceBlind i s tr
  refine ⟨fun t ht => ?_, fun f hf => ?_, fun r hr => ?_⟩
  · rwa [ht] at h
  · rwa [hf] at h
  · rwa [hr] at h

end Sys2Proof.Machine
end

section
/-! PROOFS. The words outside the table of rule R45 are refused by name, and the block answers every byte sequence (rule R55). -/

namespace Sys2Proof

/-! ### The decoder of operation words, case by case -/

/-- The high nibble of a word is its opcode field (rule R45). -/
theorem toNat_shiftRight_eight (w : BitVec 12) : (w >>> 8).toNat = (w.extractLsb' 8 4).toNat := by
  have hw : w.toNat < 4096 := w.isLt
  simp only [BitVec.toNat_ushiftRight, BitVec.extractLsb'_toNat, Nat.shiftRight_eq_div_pow]
  omega

/-- An opcode the table does not have is reserved, whatever its data (rule R55). -/
theorem decodeOp_of_reserved {w : BitVec 12}
    (h : (2 ≤ (w.extractLsb' 8 4).toNat ∧ (w.extractLsb' 8 4).toNat ≤ 7) ∨ 0xC ≤ (w.extractLsb' 8 4).toNat) :
    decodeOp w = .error (.reservedOpcode (w.extractLsb' 8 4)) := by
  simp only [decodeOp]
  split
  case h_7 => rfl
  all_goals omega

/-- An opcode of the table other than BYTE takes no data (rules R45 and R55). -/
theorem decodeOp_of_nonzeroData {w : BitVec 12}
    (h : (w.extractLsb' 8 4).toNat = 1 ∨ (8 ≤ (w.extractLsb' 8 4).toNat ∧ (w.extractLsb' 8 4).toNat ≤ 0xB))
    (hdata : w.extractLsb' 0 8 ≠ 0) : decodeOp w = .error (.nonzeroData (w.extractLsb' 8 4)) := by
  have hop : (w.extractLsb' 8 4).toNat = 1 ∨ (w.extractLsb' 8 4).toNat = 8 ∨ (w.extractLsb' 8 4).toNat = 9 ∨
      (w.extractLsb' 8 4).toNat = 0xA ∨ (w.extractLsb' 8 4).toNat = 0xB := by omega
  rcases hop with hop | hop | hop | hop | hop <;> simp only [decodeOp, hop, if_neg hdata]

end Sys2Proof

namespace Sys2Proof.Machine

/-- A presented word that does not decode ends the step in a refusal with the decoder's reason (rule R55). -/
theorem step_of_op_error {s : State} {w : BitVec 12} {rest : List Input} {why : Reject} (hport : s.port = .op w :: rest)
    (hdec : decodeOp w = .error why) : step s = .refused (.rejected why) := by
  simp only [step, runNext, hport, runInput, runEncoded, decode, hdec]

/-- The block raises no fault on any bytes from any window: each BYTE has a result (rules R55 and R68). -/
theorem feedBlock_isOk (bytes buf : List Byte) : ∃ buf' evs, feedBlock bytes buf = .ok (buf', evs) := by
  induction bytes generalizing buf with
  | nil => exact ⟨buf, [], rfl⟩
  | cons b bs ih =>
    obtain ⟨k, evs, hbyte, -⟩ := byteBlock_spec b buf
    obtain ⟨buf', evs', hrest⟩ := ih ((buf ++ [b]).drop k)
    exact ⟨buf', evs ++ evs', by simp only [feedBlock, hbyte, hrest]⟩

/-- Settles O5: the two ways a presented word can fail to decode, and the block's answer by induction on the bytes. -/
theorem otherWordsRefused : Obligations.OtherWordsRefused := by
  refine ⟨fun s w rest hport => ?_, feedBlock_isOk⟩
  rw [toNat_shiftRight_eight]
  exact ⟨fun hop => step_of_op_error hport (decodeOp_of_reserved hop),
    fun hop hdata => step_of_op_error hport (decodeOp_of_nonzeroData hop hdata)⟩

end Sys2Proof.Machine
end

section
/-! PROOFS. The checksum covers every frame byte but the last two, which are its value, high byte first (rules R60 and R61). -/

namespace Sys2Proof

/-- The validator compares the checksum of the span with the two bytes after it, all 16 bits (rule R61). -/
@[simp] theorem crcOk_append_be16 (s : List Byte) (x : Half) : crcOk (s ++ be16 x) = true ↔ crc16 s = x := by
  rw [crcOk, receivedCrc_append_be16, crcSpan_append_be16, beq_iff_eq, Option.some_inj, eq_comm]

/-- Settles O9: two last bytes are the big-endian form of the value they make. -/
theorem checksumSpan : Obligations.ChecksumSpan := by
  intro body hi lo
  rw [← be16_u16be hi lo]
  exact ⟨crcSpan_append_be16 body _, receivedCrc_append_be16 body _, crcOk_append_be16 body _⟩

end Sys2Proof
end

section
/-! PROOFS. The synchronizer loop pass by pass (rules R71 to R78), and the two stops that leave BYTE with nothing to report
(rules R71 and R75). -/

namespace Sys2Proof.Machine

/-! ### The two stops -/

/-- The length field behind the header and the type byte (rules R46 and R50). -/
theorem lengthField_header (t : Byte) (l : Half) (rest : List Byte) :
    lengthField (HDR ++ t :: be16 l ++ rest) = some l := by
  simp [lengthField, HDR, be16]

/-- Fewer than 7 bytes are a stable window (rule R71). -/
theorem stable_of_short {buf : List Byte} (h : buf.length < 7) : stable buf = true := (stable_def buf).2 (.inl h)

section
variable {t : Byte} {l : Half} {rest : List Byte} (hl : l.toNat ≤ 32)
  (hlen : (HDR ++ t :: be16 l ++ rest).length < 9 + l.toNat)
include hl hlen

/-- The header and an accepted length in front of an unfinished frame are a stable window (rule R75). -/
theorem stable_of_unfinished : stable (HDR ++ t :: be16 l ++ rest) = true :=
  (stable_def _).2 (.inr ⟨rfl, l, lengthField_header t l rest, hl, hlen⟩)

/-- Their phase is LengthKnown (rules R21 and R75). -/
theorem phase_of_unfinished : phase (HDR ++ t :: be16 l ++ rest) = .lengthKnown := by
  have h7 : ¬ (HDR ++ t :: be16 l ++ rest).length < MIN_HDRLEN := by simp [MIN_HDRLEN]; omega
  have hhdr : ¬ (HDR ++ t :: be16 l ++ rest).take HDR.length ≠ HDR := not_not.2 rfl
  have hmax : ¬ MAX_PAYLOAD < l.toNat := Nat.not_lt.2 hl
  have hT : (HDR ++ t :: be16 l ++ rest).length < totalLength l := by rw [totalLength]; omega
  rw [phase, if_neg h7, if_neg hhdr, lengthField_header]
  dsimp only
  rw [if_neg hmax, if_pos hT]

end

/-- A byte that leaves the window stable is stored, with no event (rules R63, R71 and R75). -/
theorem byteBlock_of_stable {b : Byte} {buf : List Byte} (h : stable (buf ++ [b]) = true) :
    byteBlock b buf = .ok (buf ++ [b], []) := by
  have hcap : buf.length < CAP := by
    have h40 := length_of_stable h
    rw [List.length_append, List.length_singleton] at h40
    rw [CAP]
    omega
  rw [byteBlock, append, if_pos hcap]
  exact syncLoop_of_stable h

/-- BYTE on a byte that leaves the window stable completes with the longer window and the trace as it was. -/
theorem exec_byte_of_stable {s : State} {b : Byte} (h : stable (s.window ++ [b]) = true) :
    ∃ t, exec (.byte b) s = .next t ∧ t.window = s.window ++ [b] ∧ t.trace = s.trace := by
  obtain ⟨buf, evs, t, hblock, ht, hfrom⟩ := byteWith_spec Config.hyst b s
  obtain ⟨rfl, rfl⟩ : s.window ++ [b] = buf ∧ [] = evs := by simpa [byteBlock_of_stable h] using hblock
  exact ⟨t, ht, hfrom.window, by simpa using hfrom.trace⟩

/-- Settles O14: fewer than 7 bytes are stable. -/
theorem shortBufferWaits : Obligations.ShortBufferWaits := fun _ _ h =>
  exec_byte_of_stable (stable_of_short (by simpa using h))

/-- Settles O15: an unfinished frame is stable and its phase is LengthKnown. -/
theorem unfinishedFrameWaits : Obligations.UnfinishedFrameWaits := by
  intro s b t l rest hw hl hlen
  rw [hw] at hlen
  obtain ⟨s', hexec, hwin, htrace⟩ := exec_byte_of_stable (s := s) (b := b) (by rw [hw]; exact stable_of_unfinished hl hlen)
  have hwin' := hwin.trans hw
  exact ⟨s', hexec, hwin, htrace, by rw [hwin']; exact phase_of_unfinished hl hlen,
    fun c => by rw [hwin', List.append_assoc]⟩

/-! ### The passes that drop one byte unread -/

/-- A header mismatch drops one byte, which the event carries, and re-enters the loop (rule R72). -/
theorem syncLoop_of_headerMismatch {b : Byte} {rest : List Byte} (hlen : 7 ≤ (b :: rest).length)
    (hne : (b :: rest).take 4 ≠ HDR) : syncLoop (b :: rest) = afterEvent (.headerMismatch b) (syncLoop rest) := by
  match rest, hlen with
  | h1 :: h2 :: h3 :: tail, hlen =>
    have htail : 3 ≤ tail.length := by simpa using hlen
    have hpass : rowPass (.rejHeaderMismatch b h1 h2 h3) = some ⟨.drop 1, .headerMismatch b⟩ :=
      if_pos (bne_iff_ne.2 hne)
    exact syncLoop_pass (decodeFront_of_case (.header hne htail)) hpass

/-- A length field above `MAX_PAYLOAD` drops one byte and re-enters the loop (rule R73). -/
theorem syncLoop_of_oversized {t : Byte} {l : Half} {rest : List Byte} (h : MAX_PAYLOAD < l.toNat) :
    syncLoop (HDR ++ t :: be16 l ++ rest) =
      afterEvent (.oversizedPayloadField l) (syncLoop ((HDR ++ t :: be16 l ++ rest).drop 1)) :=
  syncLoop_pass (decodeFront_of_case (.oversized h)) (if_pos (decide_eq_true h))

/-! ### The pass of a candidate frame -/

/-- The event of a DECODE result (rules R77, R78 and R95). -/
def resultEvent : Except DecodeError Measurement → Event
  | .ok (.distance d) => .frameDistance d
  | .ok .noTarget => .frameNoTarget
  | .ok .insufficient => .frameInsufficient
  | .error (.checksumMismatch c x) => .checksumMismatch c x
  | .error (.tooShort n) => .tooShort n

/-- How many bytes a DECODE result removes: the whole frame where it is decoded, one byte where it fails (rules R77 and R78). -/
def resultDrop (frame : Nat) : Except DecodeError Measurement → Nat
  | .ok _ => frame
  | .error _ => 1

section
variable {t : Byte} {p : List Byte} {x : Half}

/-- The distance of a candidate frame is its distance field (rule R93). -/
theorem distanceField_of_candidateResult {d : Half} (h : candidateResult t p x = .ok (.distance d)) :
    distanceField (frameSpan t p) = some d := by
  unfold candidateResult at h
  split at h
  · cases h
  · split at h
    · cases h
    · split at h
      · next d' hd =>
        split at h
        · cases h
        · cases h; exact hd
      · cases h

/-- The values of a checksum mismatch are the computed and the received checksum (rule R89). -/
theorem crc_of_candidateResult {c y : Half} (h : candidateResult t p x = .error (.checksumMismatch c y)) :
    c = crc16 (frameSpan t p) := by
  unfold candidateResult at h
  split at h
  · cases h; rfl
  · split at h
    · cases h
    · split at h
      · split at h <;> cases h
      · cases h

/-- The row of a candidate frame removes the bytes and emits the event of its DECODE result (rules R77, R78 and R95). -/
theorem rowPass_candidateResult (hp : p.length ≤ MAX_PAYLOAD) :
    rowPass (rowOfResult t p (candidateResult t p x)) =
      some ⟨.drop (resultDrop (9 + p.length) (candidateResult t p x)), resultEvent (candidateResult t p x)⟩ := by
  have hwf := decodeFront_wellFormed (decodeFront_candidate t p x [] hp)
  have hframe : frameLength p = 9 + p.length := by rw [frameLength]; omega
  match hr : candidateResult t p x with
  | .ok (.distance d) =>
    rw [hr] at hwf
    simp only [rowOfResult, rowPass, distancePass, distanceField_of_candidateResult hr, hframe]
    exact if_pos hwf
  | .ok .noTarget => rw [hr] at hwf; rw [← hframe]; exact if_pos hwf
  | .ok .insufficient => rw [hr] at hwf; rw [← hframe]; exact if_pos hwf
  | .error (.checksumMismatch c y) =>
    rw [hr] at hwf
    rw [crc_of_candidateResult hr]
    exact if_pos hwf
  | .error (.tooShort n) => rw [hr] at hwf; exact if_pos hwf

end

/-- A front with header, accepted length and all `T` bytes is a candidate frame by its fields (rules R46 and R76). -/
theorem exists_candidate {t : Byte} {l : Half} {rest : List Byte}
    (hlen : 9 + l.toNat ≤ (HDR ++ t :: be16 l ++ rest).length) :
    ∃ p x r, p.length = l.toNat ∧ HDR ++ t :: be16 l ++ rest = frameSpan t p ++ be16 x ++ r := by
  have hrest : l.toNat + 2 ≤ rest.length := by simp at hlen; omega
  obtain ⟨p, x, r, hp, rfl⟩ := split_candidate hrest
  exact ⟨p, x, r, hp, by simp [frameSpan, hp]⟩

/-- One pass on a whole candidate frame: what DECODE answers on its `T` bytes says the event and how many bytes go before the
loop re-enters (rules R76 to R78). -/
theorem syncLoop_of_decodeFrame {t : Byte} {l : Half} {rest : List Byte} {r : Except DecodeError Measurement}
    (hl : l.toNat ≤ 32) (hlen : 9 + l.toNat ≤ (HDR ++ t :: be16 l ++ rest).length)
    (hr : decodeFrame ((HDR ++ t :: be16 l ++ rest).take (9 + l.toNat)) = some r) :
    syncLoop (HDR ++ t :: be16 l ++ rest) =
      afterEvent (resultEvent r) (syncLoop ((HDR ++ t :: be16 l ++ rest).drop (resultDrop (9 + l.toNat) r))) := by
  obtain ⟨p, x, tail, hp, hbuf⟩ := exists_candidate hlen
  rw [← hp] at hl hr ⊢
  have htake : (frameSpan t p ++ be16 x ++ tail).take (9 + p.length) = frameSpan t p ++ be16 x :=
    List.take_left' (by simp; omega)
  rw [hbuf] at hr ⊢
  rw [htake, decodeFrame_candidate t p x (by omega)] at hr
  cases hr
  exact syncLoop_pass (decodeFront_candidate t p x tail hl) (rowPass_candidateResult hl)

/-- Settles O13: the stops are the stable windows, the passes are those of the row at the front. -/
theorem loopPasses : Obligations.LoopPasses := by
  refine fun buf => ⟨fun h => syncLoop_of_stable (stable_of_short h), ?_, ?_⟩
  · rintro b rest rfl hlen hne
    exact syncLoop_of_headerMismatch hlen hne
  · rintro t l rest rfl
    refine ⟨fun h => syncLoop_of_oversized h, fun hl hlen => syncLoop_of_stable (stable_of_unfinished hl hlen), ?_⟩
    exact fun hl hlen => ⟨fun _ hr => syncLoop_of_decodeFrame hl hlen hr, fun hr => syncLoop_of_decodeFrame hl hlen hr,
      fun hr => syncLoop_of_decodeFrame hl hlen hr, fun _ _ hr => syncLoop_of_decodeFrame hl hlen hr⟩

end Sys2Proof.Machine
end

section
/-! PROOFS. DECODE check by check (rules R86 and R88 to R93), and the operands on which DECODE exposed alone answers (rule R87). -/

namespace Sys2Proof

/-! ### The checks of DECODE, in their order -/

section
variable {f : List Byte}

/-- Step 1: a candidate below `MIN_FRAME` bytes is too short, whatever it holds (rule R88). -/
theorem decodeFrame_of_short (h : f.length < MIN_FRAME) : decodeFrame f = some (.error (.tooShort f.length)) := if_pos h

/-- Step 2: a checksum that differs ends DECODE before it reads the payload (rule R89). -/
theorem decodeFrame_of_badChecksum {x : Half} (h9 : MIN_FRAME ≤ f.length) (hx : receivedCrc f = some x)
    (hne : crc16 (crcSpan f) ≠ x) : decodeFrame f = some (.error (.checksumMismatch (crc16 (crcSpan f)) x)) := by
  simp [decodeFrame, Nat.not_lt.2 h9, hx, hne]

section
variable {l : Half} (h9 : MIN_FRAME ≤ f.length) (hx : receivedCrc f = some (crc16 (crcSpan f)))
  (hfield : lengthField f = some l)
include h9 hx hfield

/-- Step 3: a payload below `DIST_MIN_PAYLOAD` bytes carries no distance (rule R90). -/
theorem decodeFrame_of_fewPayloadBytes (hl : l.toNat < DIST_MIN_PAYLOAD) : decodeFrame f = some (.ok .insufficient) := by
  simp [decodeFrame, Nat.not_lt.2 h9, hx, hfield, hl]

/-- Steps 4 to 6: the distance field is the sentinel or a distance (rules R91 to R93). -/
theorem decodeFrame_of_distanceField {d : Half} (hl : DIST_MIN_PAYLOAD ≤ l.toNat) (hd : distanceField f = some d) :
    decodeFrame f = some (.ok (if d = NO_TARGET then .noTarget else .distance d)) := by
  by_cases hn : d = NO_TARGET <;> simp [decodeFrame, Nat.not_lt.2 h9, hx, hfield, Nat.not_lt.2 hl, hd, hn]

end

/-- The distance field is bytes 13 and 14, low byte first (rules R47 and R91). -/
theorem distanceField_of_getElem? {lo hi : Byte} (hlo : f[13]? = some lo) (hhi : f[14]? = some hi) :
    distanceField f = some (u16le lo hi) := by
  simp [distanceField, DIST_LO, DIST_HI, hlo, hhi]

end

/-- The sentinel is two bytes FF (rule R92). -/
theorem u16le_eq_noTarget_iff (lo hi : Byte) : u16le lo hi = NO_TARGET ↔ lo = 0xFF ∧ hi = 0xFF := by
  refine ⟨fun h => ?_, by rintro ⟨rfl, rfl⟩; rfl⟩
  have h' : u16be hi lo = 0xFFFF := h
  exact ⟨by rw [← loByte_u16be hi lo, h']; rfl, by rw [← hiByte_u16be hi lo, h']; rfl⟩

/-- Settles O7: each clause is one check of DECODE, reached because the checks before it passed. -/
theorem decodeOrder : Obligations.DecodeOrder := by
  refine fun f => ⟨decodeFrame_of_short, fun h9 x hx hne => decodeFrame_of_badChecksum h9 hx hne, fun h9 hx l hfield => ?_⟩
  refine ⟨fun hl => decodeFrame_of_fewPayloadBytes h9 hx hfield (Nat.lt_succ_of_le hl), fun hl lo hi hlo hhi => ?_⟩
  rw [decodeFrame_of_distanceField h9 hx hfield hl (distanceField_of_getElem? hlo hhi), ← u16le_eq_noTarget_iff]
  exact ⟨fun hn => by rw [if_pos hn], fun hn => by rw [if_neg hn]⟩

/-! ### DECODE on its own -/

/-- Two bytes or more have a received checksum (rule R61). -/
theorem receivedCrc_isSome {f : List Byte} (h : 2 ≤ f.length) : ∃ x, receivedCrc f = some x :=
  ⟨u16be f[f.length - 2] f[f.length - 1], by
    simp [receivedCrc, List.getElem?_eq_getElem (show f.length - 2 < f.length by omega),
      List.getElem?_eq_getElem (show f.length - 1 < f.length by omega)]⟩

/-- DECODE reads no byte without a value on an operand of as many bytes as its length field says (rules R19 and R87). -/
theorem decodeFrame_isSome {f : List Byte} {l : Half} (hfield : lengthField f = some l) (hlen : f.length = totalLength l) :
    ∃ r, decodeFrame f = some r := by
  rw [totalLength] at hlen
  have h9 : MIN_FRAME ≤ f.length := by rw [MIN_FRAME]; omega
  obtain ⟨x, hx⟩ := receivedCrc_isSome (f := f) (by omega)
  by_cases hc : crc16 (crcSpan f) = x
  · subst hc
    by_cases hl : l.toNat < DIST_MIN_PAYLOAD
    · exact ⟨_, decodeFrame_of_fewPayloadBytes h9 hx hfield hl⟩
    · have h14 : 14 < f.length := by rw [DIST_MIN_PAYLOAD] at hl; omega
      exact ⟨_, decodeFrame_of_distanceField h9 hx hfield (Nat.le_of_not_lt hl)
        (distanceField_of_getElem? (List.getElem?_eq_getElem (by omega)) (List.getElem?_eq_getElem h14))⟩
  · exact ⟨_, decodeFrame_of_badChecksum h9 hx hc⟩

/-- DECODE alone answers what DECODE does, on an operand the synchronizer could form and on no other (rule R87). -/
theorem decodeAlone_eq_ok_iff {f : List Byte} {r : Except DecodeError Measurement} :
    decodeAlone f = .ok r ↔
      (∃ l, lengthField f = some l ∧ f.length = totalLength l ∧ f.length ≤ MAX_FRAME) ∧ decodeFrame f = some r := by
  unfold decodeAlone
  cases hfield : lengthField f with
  | none => simp
  | some l =>
    by_cases hop : f.length = totalLength l ∧ f.length ≤ MAX_FRAME
    · obtain ⟨hlen, hmax⟩ := hop
      obtain ⟨r', hr'⟩ := decodeFrame_isSome hfield hlen
      rw [hlen] at hmax
      simp [hlen, hmax, hr']
    · simp [hop]

/-- DECODE alone answers on exactly the operands the synchronizer could form (rule R87). -/
theorem decodeAlone_isOk_iff (f : List Byte) :
    (∃ r, decodeAlone f = .ok r) ↔ ∃ l, lengthField f = some l ∧ f.length = totalLength l ∧ f.length ≤ MAX_FRAME := by
  simp only [decodeAlone_eq_ok_iff, exists_and_left, and_iff_left_iff_imp]
  rintro ⟨l, hfield, hlen, -⟩
  exact decodeFrame_isSome hfield hlen

/-- A candidate frame of an accepted payload is an operand of DECODE alone (rules R46 and R87). -/
theorem decodeAlone_candidate (t : Byte) (p : List Byte) (x : Half) (hp : p.length ≤ MAX_PAYLOAD) :
    decodeAlone (frameSpan t p ++ be16 x) = .ok (candidateResult t p x) := by
  rw [MAX_PAYLOAD] at hp
  have hlen : (frameSpan t p ++ be16 x).length = 9 + p.length := by simp; omega
  refine decodeAlone_eq_ok_iff.2 ⟨⟨_, lengthField_frameSpan_append t p _, ?_, ?_⟩, decodeFrame_candidate t p x (by omega)⟩
  · rw [totalLength, toNat_length (by omega)]; omega
  · rw [MAX_FRAME]; omega

/-- Settles O6: the operands of `decodeAlone_isOk_iff`, and the candidate frame at the front is one of them. -/
theorem decodeAloneRefuses : Obligations.DecodeAloneRefuses := by
  refine ⟨fun f => ?_, fun t l rest hl hlen => ?_⟩
  · have hT (l : Half) : totalLength l = 9 + l.toNat := by rw [totalLength]; omega
    simp only [← hT]
    exact decodeAlone_isOk_iff f
  · obtain ⟨p, x, tail, hp, hbuf⟩ := Machine.exists_candidate hlen
    have hrest : rest = p ++ be16 x ++ tail := congrArg (List.drop 7) hbuf
    have hframe : (frameSpan t p ++ be16 x ++ tail).take (9 + l.toNat) = frameSpan t p ++ be16 x :=
      List.take_left' (by simp; omega)
    have hpayload : rest.take l.toNat = p := by rw [hrest, List.append_assoc, List.take_left' hp]
    have hmax : p.length ≤ MAX_PAYLOAD := by rw [hp]; exact hl
    rw [hbuf, hframe, hpayload]
    exact ⟨_, decodeAlone_candidate t p x hmax, Machine.decodeFront_candidate t p x tail hmax⟩

end Sys2Proof
end

section
/-! PROOFS. What one event delivered does to the link's activity and to the publisher (rules R100, R104, R106 and R114). -/

namespace Sys2Proof.Machine

/-! ### The publisher leaves the activity alone -/

@[simp] theorem publishNoTarget_lastActivity (s : State) : (publishNoTarget s).lastActivity = s.lastActivity := by
  unfold publishNoTarget
  split
  · rfl
  · exact State.publish_lastActivity s _ _
  · exact State.publish_lastActivity s _ _

@[simp] theorem publishDistance_lastActivity (hyst : HystTest) (d : Nat) (s : State) :
    (publishDistance hyst d s).lastActivity = s.lastActivity := by
  unfold publishDistance
  split
  · exact State.publish_lastActivity s _ _
  · exact State.publish_lastActivity s _ _
  · dsimp only
    split <;> split <;> rfl

/-! ### "No target", by what was published last -/

/-- A second "no target" in a row publishes nothing (rule R104). -/
theorem publishNoTarget_of_noTarget {s : State} (h : s.lastPublished = .noTarget) : publishNoTarget s = s := by
  simp only [publishNoTarget, h]

/-- "No target" after anything else publishes NaN (rule R104). -/
theorem publishNoTarget_of_ne {s : State} (h : s.lastPublished ≠ .noTarget) :
    publishNoTarget s = s.publish .nan .noTarget := by
  unfold publishNoTarget
  split
  · contradiction
  · rfl
  · rfl

/-! ### One event delivered -/

/-- A success, whatever it publishes, sets the activity to the clock (rule R100). -/
theorem deliver_lastActivity_of_success {e : Event} (he : isSuccess e = true) (hyst : HystTest) (s : State) :
    (deliver hyst e s).lastActivity = s.now := by
  cases e with
  | frameDistance d => exact publishDistance_lastActivity hyst d.toNat s.touchActivity
  | frameNoTarget => exact publishNoTarget_lastActivity s.touchActivity
  | frameInsufficient => exact s.touchActivity_lastActivity
  | _ => cases he

/-- An error event reaches neither the activity nor the publisher (rules R100, R106 and R114). -/
theorem deliver_of_error {e : Event} (he : isSuccess e = false) (hyst : HystTest) (s : State) : deliver hyst e s = s := by
  cases e with
  | frameDistance _ | frameNoTarget | frameInsufficient => cases he
  | _ => rfl

/-- Settles O48: the publisher leaves the activity a success has set, and an error event changes nothing. -/
theorem activityRefreshed : Obligations.ActivityRefreshed :=
  fun hyst _ s => ⟨fun he => deliver_lastActivity_of_success he hyst s,
    fun he => congrArg State.lastActivity (deliver_of_error he hyst s), fun _ => ⟨rfl, rfl, rfl⟩⟩

/-- Settles O49: the two cases of the publisher, on the state whose activity is refreshed. -/
theorem noTargetPublishes : Obligations.NoTargetPublishes :=
  fun _ s => ⟨publishNoTarget_of_ne (s := s.touchActivity), publishNoTarget_of_noTarget (s := s.touchActivity)⟩

/-- Settles O51: "insufficient" only refreshes the activity, and an error event does not even that. -/
theorem insufficientPublishesNothing : Obligations.InsufficientPublishesNothing :=
  fun hyst s => ⟨rfl, fun _ he => deliver_of_error he hyst s⟩

end Sys2Proof.Machine
end

section
/-! PROOFS. Decoder and encoder agree: the encoding of a well-formed instruction decodes to it, and an operation word that decodes
is an encoding (rules R45, R46, R49, R54, R80). -/

namespace Sys2Proof

/-! ### DECODE on a candidate frame, by its checksum and its payload -/

section
variable {t : Byte} {p : List Byte}

/-- A checksum that differs is reported, whatever the payload holds (rule R89). -/
theorem candidateResult_of_ne {x : Half} (h : crc16 (frameSpan t p) ≠ x) :
    candidateResult t p x = .error (.checksumMismatch (crc16 (frameSpan t p)) x) := if_pos h

/-- A valid frame of fewer than 14 payload bytes is insufficient (rule R90). -/
theorem candidateResult_of_few (h : p.length < DIST_MIN_PAYLOAD) :
    candidateResult t p (crc16 (frameSpan t p)) = .ok .insufficient := by
  rw [candidateResult, if_neg (not_not.2 rfl), if_pos h]

/-- A valid frame of at least 14 payload bytes is decoded by its distance field (rules R91 to R93). -/
theorem candidateResult_of_distanceField {d : Half} (h : DIST_MIN_PAYLOAD ≤ p.length)
    (hd : distanceField (frameSpan t p) = some d) :
    candidateResult t p (crc16 (frameSpan t p)) = .ok (if d = NO_TARGET then .noTarget else .distance d) := by
  rw [candidateResult, if_neg (not_not.2 rfl), if_neg (Nat.not_lt.2 h), hd]
  dsimp only
  split <;> rfl

/-- The distance field of a frame is payload bytes 6 and 7, low byte first (rules R46 and R47). -/
theorem distanceField_frameSpan {lo hi : Byte} (hlo : p[6]? = some lo) (hhi : p[7]? = some hi) :
    distanceField (frameSpan t p) = some (u16le lo hi) :=
  distanceField_of_getElem? (by rw [frameSpan_eq_cons]; exact hlo) (by rw [frameSpan_eq_cons]; exact hhi)

end

/-- A valid frame at the front decodes to the row of its DECODE result (rules R46 and R95). -/
theorem decodeFront_frameBytes (t : Byte) (p : List Byte) (hp : p.length ≤ MAX_PAYLOAD) :
    decodeFront (frameBytes t p) = .ok (rowOfResult t p (candidateResult t p (crc16 (frameSpan t p)))) := by
  simpa [frameBytes] using Machine.decodeFront_candidate t p (crc16 (frameSpan t p)) [] hp

/-! ### Decoding what was encoded -/

/-- A frame row whose distance field is `d` decodes from its frame to the row of that distance (rules R92 and R93). -/
theorem decodeFront_frameBytes_of_distanceField {t : Byte} {p : List Byte} {d : Half} (h14 : DIST_MIN_PAYLOAD ≤ p.length)
    (hp : p.length ≤ MAX_PAYLOAD) (hd : distanceField (frameSpan t p) = some d) :
    decodeFront (frameBytes t p) = .ok (if d = NO_TARGET then .frameNoTarget t p else .frameDistance t p) := by
  rw [decodeFront_frameBytes t p hp, candidateResult_of_distanceField h14 hd]
  split <;> rfl

/-- Settles O2: an operation word by its table entry, a front by the case it is in (`FrontCase`), a frame by its DECODE result. -/
theorem encodeThenDecode : Obligations.EncodeThenDecode := by
  intro i hwf htoo
  cases i with
  | byte b => exact decodeOp_byte b
  | reset | init | rxTick | lmTick | diag | startCmd => rfl
  | frameDistance t p =>
    simp only [Instr.wellFormed, Bool.and_eq_true, decide_eq_true_eq, bne_iff_ne] at hwf
    obtain ⟨⟨h14, hp⟩, hne⟩ := hwf
    obtain ⟨d, hd⟩ := distanceField_isSome t p h14
    have hd' : d ≠ NO_TARGET := by rintro rfl; exact hne hd
    exact (decodeFront_frameBytes_of_distanceField h14 hp hd).trans (by rw [if_neg hd'])
  | frameNoTarget t p =>
    simp only [Instr.wellFormed, Bool.and_eq_true, decide_eq_true_eq, beq_iff_eq] at hwf
    obtain ⟨⟨h14, hp⟩, hd⟩ := hwf
    exact decodeFront_frameBytes_of_distanceField h14 hp hd
  | frameInsufficient t p =>
    have hfew : p.length < DIST_MIN_PAYLOAD := of_decide_eq_true hwf
    have hp : p.length ≤ MAX_PAYLOAD := by rw [DIST_MIN_PAYLOAD] at hfew; rw [MAX_PAYLOAD]; omega
    exact (decodeFront_frameBytes t p hp).trans (by rw [candidateResult_of_few hfew]; rfl)
  | rejHeaderMismatch h0 h1 h2 h3 => exact Machine.decodeFront_of_case (.header (bne_iff_ne.1 hwf) (Nat.le_refl 3))
  | rejOversizedPayloadField t l =>
    simpa [decode, encode] using Machine.decodeFront_of_case (.oversized (t := t) (rest := []) (of_decide_eq_true hwf))
  | rejFrameTooLarge t l => exact absurd rfl (htoo t l)
  | rejChecksumMismatch t p x =>
    simp only [Instr.wellFormed, Bool.and_eq_true, decide_eq_true_eq, bne_iff_ne] at hwf
    obtain ⟨hp, hx⟩ := hwf
    have h := Machine.decodeFront_candidate t p x [] hp
    rw [candidateResult_of_ne hx, List.append_nil] at h
    exact h
  | rejTooShort n => exact if_pos (of_decide_eq_true hwf)

/-! ### Words and fronts of their own -/

/-- Settles O1: each word and each front is evaluated. -/
theorem wordsDecode : Obligations.WordsDecode := by
  unfold Obligations.WordsDecode
  decide +kernel

/-- Settles O3: a total length above the capacity is a length field above `MAX_PAYLOAD`. -/
theorem frameTooLargeDecodes : Obligations.FrameTooLargeDecodes := by
  intro t l rest h
  have hmax : ¬ 65535 < l.toNat := Nat.not_lt.2 (Nat.le_of_lt_succ l.isLt)
  have hover : MAX_PAYLOAD < l.toNat := by rw [CAP, totalLength] at h; rw [MAX_PAYLOAD]; omega
  refine ⟨?_, Machine.decodeFront_of_case (.oversized hover)⟩
  have h7 : ¬ (HDR ++ t :: be16 l ++ rest).length < MIN_HDRLEN := by simp [MIN_HDRLEN]; omega
  simp only [classifyFront]
  rw [if_neg h7]
  simp [HDR, be16, hmax, h]

/-- An opcode and a data byte that decode are the encoding of what they decode to: the opcode decides the row, and a row other than
BYTE takes no data (rule R45). -/
theorem encode_of_decodeOp_append {c : BitVec 4} {data : Byte} {i : Instr} (h : decodeOp (c ++ data) = .ok i) :
    encode i = .op (c ++ data) := by
  unfold decodeOp at h
  simp only [opcode_of_append, data_of_append] at h
  have hrow {n : Nat} (hc : c.toNat = n) : c = BitVec.ofNat 4 n := by rw [← hc, BitVec.ofNat_toNat, BitVec.setWidth_eq]
  split at h
  case h_1 hc => cases h; rw [hrow hc]; rfl
  case h_7 => cases h
  all_goals
    next hc =>
    obtain rfl := hrow hc
    split at h
    · next hdata => cases h; rw [hdata]; rfl
    · cases h

/-- Settles O4: every word is an opcode followed by a data byte. -/
theorem operationWordsAreTheTable : Obligations.OperationWordsAreTheTable := by
  intro w i h
  rw [word_eq_append w] at h ⊢
  exact encode_of_decodeOp_append h

end Sys2Proof
end

section
/-! PROOFS. Valid frames in the byte stream: every byte but the last leaves a stable window, the last gives the frame's one event,
and a garbage byte in front costs one header mismatch (rules R52, R53, R57, R77, R83); the phases of a stable window (rule R21). -/

namespace Sys2Proof.Machine

/-! ### Stable windows and their phases -/

/-- Bytes missing at the end leave a stable window stable (rules R71 and R75). -/
theorem stable_of_append {buf more : List Byte} (h : stable (buf ++ more) = true) : stable buf = true := by
  by_cases h7 : buf.length < 7
  · exact stable_of_short h7
  · rcases (stable_def _).1 h with hshort | ⟨hhdr, l, hfield, hl, hlen⟩
    · rw [List.length_append] at hshort; omega
    · rw [List.take_append_of_le_length (by omega)] at hhdr
      rw [lengthField, List.getElem?_append_left (by omega), List.getElem?_append_left (by omega)] at hfield
      rw [List.length_append] at hlen
      exact (stable_def _).2 (.inr ⟨hhdr, l, hfield, hl, by omega⟩)

/-- Seven bytes or more have a length field. -/
theorem lengthField_isSome {buf : List Byte} (h : 7 ≤ buf.length) : ∃ l, lengthField buf = some l :=
  ⟨u16be buf[5] buf[6], by
    simp [lengthField, List.getElem?_eq_getElem (show 5 < buf.length by omega),
      List.getElem?_eq_getElem (show 6 < buf.length by omega)]⟩

/-- The phase is LengthKnown on exactly the windows rule R79 lets wait for the rest of a frame. -/
theorem phase_eq_lengthKnown_iff (buf : List Byte) :
    phase buf = .lengthKnown ↔ 7 ≤ buf.length ∧ buf.take 4 = HDR ∧
      ∃ l, lengthField buf = some l ∧ l.toNat ≤ MAX_PAYLOAD ∧ buf.length < 9 + l.toNat := by
  by_cases h7 : buf.length < 7
  · simp [phase, MIN_HDRLEN, h7]
  · obtain ⟨l, hl⟩ := lengthField_isSome (Nat.le_of_not_lt h7)
    have hT : totalLength l = 9 + l.toNat := by rw [totalLength]; omega
    by_cases hhdr : buf.take 4 = HDR
    · by_cases hmax : MAX_PAYLOAD < l.toNat
      · simp [phase, MIN_HDRLEN, h7, hhdr, hl, hmax]
      · by_cases hlen : buf.length < 9 + l.toNat
        · simp [phase, MIN_HDRLEN, h7, hhdr, hl, hmax, hT, hlen, Nat.le_of_not_lt h7, Nat.le_of_not_lt hmax]
        · simp [phase, MIN_HDRLEN, h7, hhdr, hl, hmax, hT, hlen]
    · simp [phase, MIN_HDRLEN, h7, hhdr]

/-- Settles O35: rule R79's two cases are the two phases in which the loop waits. -/
theorem stablePhases : Obligations.StablePhases := by
  intro buf
  rw [stable_def, phase_eq_lengthKnown_iff]
  by_cases h7 : buf.length < 7
  · simp [phase, MIN_HDRLEN, h7]
  · simp only [h7, Nat.le_of_not_lt h7, false_or, and_false, true_and]

/-! ### Bytes that leave the window stable -/

/-- Below the capacity BYTE is the loop on the longer window (rules R63 and R68). -/
theorem byteBlock_of_lt {b : Byte} {buf : List Byte} (h : buf.length < CAP) : byteBlock b buf = syncLoop (buf ++ [b]) := by
  rw [byteBlock, append, if_pos h]

/-- Feeding the block one byte is BYTE. -/
theorem feedBlock_singleton (b : Byte) (buf : List Byte) : feedBlock [b] buf = byteBlock b buf := by
  obtain ⟨k, evs, h, -⟩ := byteBlock_spec b buf
  simp only [feedBlock, h, List.append_nil]

/-- The block fed one stream after another (rule R82). -/
theorem feedBlock_append {xs ys buf buf' buf'' : List Byte} {evs evs' : List Event}
    (hx : feedBlock xs buf = .ok (buf', evs)) (hy : feedBlock ys buf' = .ok (buf'', evs')) :
    feedBlock (xs ++ ys) buf = .ok (buf'', evs ++ evs') := by
  induction xs generalizing buf evs with
  | nil => cases hx; exact hy
  | cons x xs ih =>
    obtain ⟨k, evs1, hb, -⟩ := byteBlock_spec x buf
    obtain ⟨mid, evs2, hm⟩ := feedBlock_isOk xs ((buf ++ [x]).drop k)
    simp only [feedBlock, hb, hm] at hx
    cases hx
    simp only [List.cons_append, feedBlock, hb, ih hm, List.append_assoc]

/-- Bytes up to a stable window are stored and nothing else happens before the bytes after them (rules R71 and R75). -/
theorem feedBlock_append_of_stable {xs buf : List Byte} (h : stable (buf ++ xs) = true) (ys : List Byte) :
    feedBlock (xs ++ ys) buf = feedBlock ys (buf ++ xs) := by
  induction xs generalizing buf with
  | nil => simp
  | cons x xs ih =>
    have hsplit : buf ++ x :: xs = buf ++ [x] ++ xs := by simp
    rw [hsplit] at h ⊢
    obtain ⟨buf', evs, hrest⟩ := feedBlock_isOk ys (buf ++ [x] ++ xs)
    simp only [List.cons_append, feedBlock, byteBlock_of_stable (stable_of_append h), ih h, hrest, List.nil_append]

/-! ### A valid frame -/

/-- The event of the valid frame with this type byte and payload (rules R77 and R95). -/
def frameEvent (t : Byte) (p : List Byte) : Event := resultEvent (candidateResult t p (crc16 (frameSpan t p)))

section
variable {t : Byte} {p : List Byte}

theorem frameEvent_of_few (h : p.length ≤ 13) : frameEvent t p = .frameInsufficient := by
  rw [frameEvent, candidateResult_of_few (Nat.lt_succ_of_le h), resultEvent]

theorem frameEvent_of_distanceBytes {lo hi : Byte} (h : 14 ≤ p.length) (hlo : p[6]? = some lo) (hhi : p[7]? = some hi) :
    frameEvent t p = if lo = 0xFF ∧ hi = 0xFF then .frameNoTarget else .frameDistance (u16le lo hi) := by
  rw [frameEvent, candidateResult_of_distanceField h (distanceField_frameSpan hlo hhi)]
  simp only [u16le_eq_noTarget_iff]
  split <;> rfl

/-- DECODE succeeds on a valid frame (rules R90 to R93). -/
theorem candidateResult_isOk (t : Byte) (p : List Byte) : ∃ m, candidateResult t p (crc16 (frameSpan t p)) = .ok m := by
  by_cases h : p.length < DIST_MIN_PAYLOAD
  · exact ⟨_, candidateResult_of_few h⟩
  · obtain ⟨d, hd⟩ := distanceField_isSome t p (Nat.le_of_not_lt h)
    exact ⟨_, candidateResult_of_distanceField (Nat.le_of_not_lt h) hd⟩

/-- A frame without its last byte, and its last byte. -/
theorem frameBytes_eq_concat (t : Byte) (p : List Byte) :
    frameBytes t p = (HDR ++ t :: be16 (BitVec.ofNat 16 p.length) ++ (p ++ [hiByte (crc16 (frameSpan t p))])) ++
      [loByte (crc16 (frameSpan t p))] := by
  simp [frameBytes, frameSpan, be16]

variable (hp : p.length ≤ MAX_PAYLOAD)
include hp

/-- A valid frame at the front is consumed whole with its one event, and the loop re-enters (rule R77). -/
theorem syncLoop_frameBytes (rest : List Byte) :
    syncLoop (frameBytes t p ++ rest) = afterEvent (frameEvent t p) (syncLoop rest) := by
  have h := syncLoop_pass (decodeFront_candidate t p (crc16 (frameSpan t p)) rest hp) (rowPass_candidateResult hp)
  obtain ⟨m, hm⟩ := candidateResult_isOk t p
  rw [frameEvent]
  rw [hm] at h ⊢
  rwa [← frameBytes, resultDrop, List.drop_left' (length_frameBytes t p)] at h

/-- A frame without its last byte is stable (rule R75). -/
theorem stable_frameBytes_dropLast : stable (frameBytes t p).dropLast = true := by
  have hlen : (BitVec.ofNat 16 p.length).toNat = p.length := toNat_length (by rw [MAX_PAYLOAD] at hp; omega)
  rw [frameBytes_eq_concat, List.dropLast_concat]
  refine stable_of_unfinished ?_ ?_
  · rwa [hlen]
  · rw [hlen]; simp; omega

/-- A valid frame fed into an empty buffer gives its one event and leaves the buffer empty (rules R52, R53 and R77). -/
theorem feedBlock_frameBytes : feedBlock (frameBytes t p) [] = .ok ([], [frameEvent t p]) := by
  have hsplit : (frameBytes t p).dropLast ++ [loByte (crc16 (frameSpan t p))] = frameBytes t p := by
    rw [frameBytes_eq_concat, List.dropLast_concat]
  have hcap : (frameBytes t p).dropLast.length < CAP :=
    Nat.lt_of_le_of_lt (length_of_stable (stable_frameBytes_dropLast hp)) (by decide)
  have hframe := syncLoop_frameBytes (t := t) hp []
  rw [List.append_nil] at hframe
  rw [← hsplit, feedBlock_append_of_stable (stable_frameBytes_dropLast hp), feedBlock_singleton, List.nil_append,
    byteBlock_of_lt hcap, hsplit, hframe]
  rfl

end

/-- Settles O30: the window stays stable until the last byte, which makes the frame whole. -/
theorem validFrameDecodes : Obligations.ValidFrameDecodes := by
  refine fun t p hp => ⟨?_, fun h13 => ?_, fun h14 lo hi hlo hhi => ?_⟩
  · have h := feedBlock_append_of_stable (buf := []) (stable_frameBytes_dropLast (t := t) hp) []
    rwa [List.append_nil] at h
  · rw [feedBlock_frameBytes hp, frameEvent_of_few h13]
  · rw [feedBlock_frameBytes hp, frameEvent_of_distanceBytes h14 hlo hhi]

/-- Settles O31: the garbage byte is dropped when the seventh byte arrives, and the six frame bytes behind it are stable. -/
theorem oneGarbageByteRecovers : Obligations.OneGarbageByteRecovers := by
  intro g t p hp
  refine ⟨frameEvent t p, feedBlock_frameBytes hp, ?_⟩
  obtain ⟨lh, rest, hframe⟩ : ∃ lh rest, frameBytes t p = [0xA5, 0x03, 0x20, 0x01, t] ++ lh :: rest := ⟨_, _, rfl⟩
  have hgarbage : feedBlock (g :: [0xA5, 0x03, 0x20, 0x01, t] ++ [lh]) [] =
      .ok ([0xA5, 0x03, 0x20, 0x01, t, lh], [.headerMismatch g]) := by
    have hne : (g :: [0xA5, 0x03, 0x20, 0x01, t, lh]).take 4 ≠ HDR := by simp [HDR]
    rw [feedBlock_append_of_stable (stable_of_short (by simp)), feedBlock_singleton, byteBlock_of_lt (by simp [CAP])]
    exact (syncLoop_of_headerMismatch (by simp) hne).trans
      (by rw [syncLoop_of_stable (stable_of_short (by simp))]; rfl)
  have hrest : feedBlock rest [0xA5, 0x03, 0x20, 0x01, t, lh] = .ok ([], [frameEvent t p]) := by
    rw [← feedBlock_frameBytes hp, hframe]
    exact (feedBlock_append_of_stable (xs := [0xA5, 0x03, 0x20, 0x01, t, lh]) (buf := [])
      (stable_of_short (by simp)) rest).symm
  rw [hframe]
  simpa using feedBlock_append hgarbage hrest

/-! ### The stimulus MEAS -/

/-- The two bytes of a distance, low byte first, make it (rules R12 and R57). -/
theorem u16le_lo_hi (v : Half) : u16le (loByte v) (hiByte v) = v := u16be_hi_lo v

/-- Settles O34: MEAS is the frame whose payload bytes 6 and 7 are the distance, low byte first. -/
theorem measDecodes : Obligations.MeasDecodes := by
  intro mm t hmm
  have hp : (measPayload (BitVec.ofNat 16 mm)).length = 14 := rfl
  have hsentinel : BitVec.ofNat 16 mm = NO_TARGET ↔ mm = 65535 := by
    rw [← BitVec.toNat_inj, BitVec.toNat_ofNat, Nat.mod_eq_of_lt (by omega)]
    rfl
  refine ⟨frameBytes t (measPayload (BitVec.ofNat 16 mm)), by rw [measStimulus, if_pos hmm]; rfl,
    by rw [length_frameBytes, hp], ?_⟩
  rw [feedBlock_frameBytes (by rw [hp, MAX_PAYLOAD]; omega), frameEvent_of_distanceBytes (by rw [hp]) rfl rfl]
  simp only [← u16le_eq_noTarget_iff, u16le_lo_hi, hsentinel]

end Sys2Proof.Machine
end

section
/-! PROOFS. The state an operation of the block leaves, the pass of each row, the events of the loop, and BYTE, which completes with
the window and the events of the block (rules R63, R64, R68, R69, R79 to R81). -/

namespace Sys2Proof.Machine

/-! ### The state an operation of the block leaves -/

theorem afterBlock_blockFrom (s : State) (buf : List Byte) (evs : List Event) :
    BlockFrom s (s.afterBlock buf evs) buf evs := by
  obtain ⟨t, ht, h⟩ := finishBlock_spec Config.hyst s buf evs
  cases ht
  exact h

@[simp] theorem window_afterBlock (s : State) (buf : List Byte) (evs : List Event) : (s.afterBlock buf evs).window = buf :=
  (afterBlock_blockFrom s buf evs).window

@[simp] theorem len_afterBlock (s : State) (buf : List Byte) (evs : List Event) : (s.afterBlock buf evs).len = buf.length := by
  rw [← State.length_window, window_afterBlock]

@[simp] theorem trace_afterBlock (s : State) (buf : List Byte) (evs : List Event) :
    (s.afterBlock buf evs).trace = s.trace ++ evs := (afterBlock_blockFrom s buf evs).trace

/-- Without an environment only the window, the trace and the kind of the run change (rule R101). -/
theorem afterBlock_of_ne_system {s : State} (h : s.mode ≠ .system) (buf : List Byte) (evs : List Event) :
    s.afterBlock buf evs = (s.enterBlock.setWindow buf).emit evs :=
  deliverInSystem_of_ne (s := (s.enterBlock.setWindow buf).emit evs) (fun hm => h (s.enterBlock_mode_eq_system.1 hm)) _ _

/-- What an operation of the block leaves alone (rules R68 and R96). -/
theorem afterBlock_frame (s : State) (buf : List Byte) (evs : List Event) :
    (s.afterBlock buf evs).started = s.started ∧ (s.afterBlock buf evs).rxq = s.rxq ∧ (s.afterBlock buf evs).now = s.now ∧
    (s.afterBlock buf evs).txq = s.txq ∧ (s.afterBlock buf evs).line = s.line ∧
    (s.afterBlock buf evs).diagLog = s.diagLog ∧ (s.afterBlock buf evs).port = s.port ∧
    (s.mode ≠ .fresh → (s.afterBlock buf evs).mode = s.mode) ∧
    (s.mode ≠ .system → (s.afterBlock buf evs).lastActivity = s.lastActivity ∧
      (s.afterBlock buf evs).lastPublished = s.lastPublished ∧ (s.afterBlock buf evs).published = s.published ∧
      (s.afterBlock buf evs).draws = s.draws) := by
  have h := afterBlock_blockFrom s buf evs
  refine ⟨h.started, h.rxq, h.now, h.txq, h.line, h.diagLog, h.port,
    fun hm => h.mode.trans (s.enterBlock_mode_of_begun hm), fun hm => ?_⟩
  rw [afterBlock_of_ne_system hm]
  exact ⟨rfl, rfl, rfl, rfl⟩

/-- A buffer that holds a rest of `w`: each byte is the byte that stood further back, and no index past the end has a value
(rules R19 and R64). -/
theorem afterBlock_read (s : State) {w : List Byte} {k : Nat} (hk : k ≤ w.length) (evs : List Event) :
    (∀ a, a < (s.afterBlock (w.drop k) evs).len →
      Memory.read (s.afterBlock (w.drop k) evs).buf a = w[a + (w.length - (s.afterBlock (w.drop k) evs).len)]?) ∧
    ∀ a, (s.afterBlock (w.drop k) evs).len ≤ a → Memory.read (s.afterBlock (w.drop k) evs).buf a = none := by
  simp only [(afterBlock_blockFrom s (w.drop k) evs).buf, Memory.read_ofBytes, len_afterBlock, List.length_drop,
    List.getElem?_drop]
  refine ⟨fun a ha => ?_, fun a ha => List.getElem?_eq_none (by omega)⟩
  rw [show w.length - (w.length - k) = k by omega, Nat.add_comm]

/-! ### The pass of each row within its constraint -/

theorem frameLength_eq (p : List Byte) : frameLength p = 9 + p.length := by rw [frameLength]; omega

section
variable {t : Byte} {p : List Byte}

/-- The row FRAME_DISTANCE consumes its frame; the event carries payload bytes 6 and 7 (rules R47, R77 and R93). -/
theorem rowPass_frameDistance {d : Half} (h14 : DIST_MIN_PAYLOAD ≤ p.length) (hp : p.length ≤ MAX_PAYLOAD)
    (hd : distanceField (frameSpan t p) = some d) (hne : d ≠ NO_TARGET) :
    rowPass (.frameDistance t p) = some ⟨.drop (9 + p.length), .frameDistance d⟩ := by
  have hwf : (Instr.frameDistance t p).wellFormed = true := by simp [Instr.wellFormed, h14, hp, hd, hne]
  simp only [rowPass, distancePass, if_pos hwf, hd, frameLength_eq]

/-- The row FRAME_NO_TARGET consumes its frame (rules R77 and R92). -/
theorem rowPass_frameNoTarget (hwf : (Instr.frameNoTarget t p).wellFormed = true) :
    rowPass (.frameNoTarget t p) = some ⟨.drop (9 + p.length), .frameNoTarget⟩ := by
  rw [← frameLength_eq]
  exact if_pos hwf

/-- The row FRAME_INSUFFICIENT consumes its frame (rules R77 and R90). -/
theorem rowPass_frameInsufficient (hwf : (Instr.frameInsufficient t p).wellFormed = true) :
    rowPass (.frameInsufficient t p) = some ⟨.drop (9 + p.length), .frameInsufficient⟩ := by
  rw [← frameLength_eq]
  exact if_pos hwf

/-- A row FRAME_DISTANCE within its constraint carries some distance. -/
theorem rowPass_frameDistance_of_wellFormed (hwf : (Instr.frameDistance t p).wellFormed = true) :
    ∃ d, rowPass (.frameDistance t p) = some ⟨.drop (9 + p.length), .frameDistance d⟩ := by
  simp only [Instr.wellFormed, Bool.and_eq_true, decide_eq_true_eq, bne_iff_ne] at hwf
  obtain ⟨⟨h14, hp⟩, hne⟩ := hwf
  obtain ⟨d, hd⟩ := distanceField_isSome t p h14
  exact ⟨d, rowPass_frameDistance h14 hp hd (by rintro rfl; exact hne hd)⟩

end

/-- The row REJ_HEADER_MISMATCH drops one byte (rule R72). -/
theorem rowPass_rejHeaderMismatch {h0 h1 h2 h3 : Byte} (h : (Instr.rejHeaderMismatch h0 h1 h2 h3).wellFormed = true) :
    rowPass (.rejHeaderMismatch h0 h1 h2 h3) = some ⟨.drop 1, .headerMismatch h0⟩ := if_pos h

/-- The row REJ_OVERSIZED_PAYLOAD_FIELD drops one byte (rule R73). -/
theorem rowPass_rejOversizedPayloadField {t : Byte} {l : Half}
    (h : (Instr.rejOversizedPayloadField t l).wellFormed = true) :
    rowPass (.rejOversizedPayloadField t l) = some ⟨.drop 1, .oversizedPayloadField l⟩ := if_pos h

/-- The row REJ_FRAME_TOO_LARGE clears the window and stops (rule R74). -/
theorem rowPass_rejFrameTooLarge {t : Byte} {l : Half} (h : (Instr.rejFrameTooLarge t l).wellFormed = true) :
    rowPass (.rejFrameTooLarge t l) = some ⟨.clearStop, .frameTooLarge (totalLength l)⟩ := if_pos h

/-- The row REJ_CHECKSUM_MISMATCH drops one byte (rules R78 and R89). -/
theorem rowPass_rejChecksumMismatch {t : Byte} {p : List Byte} {x : Half}
    (h : (Instr.rejChecksumMismatch t p x).wellFormed = true) :
    rowPass (.rejChecksumMismatch t p x) = some ⟨.drop 1, .checksumMismatch (crc16 (frameSpan t p)) x⟩ := if_pos h

/-- The row REJ_TOO_SHORT drops one byte (rules R78 and R88). -/
theorem rowPass_rejTooShort {n : Nat} (h : (Instr.rejTooShort n).wellFormed = true) :
    rowPass (.rejTooShort n) = some ⟨.drop 1, .tooShort n⟩ := if_pos h

/-! ### The events of the loop -/

/-- The events the loop emits by itself: no overflow, no frame too large or too short, no timeout, and no distance that is the
sentinel (rules R80, R92 and R93). -/
def isLoopEvent : Event → Bool
  | .frameDistance d => d != NO_TARGET
  | .frameNoTarget => true
  | .frameInsufficient => true
  | .bufferOverflow => false
  | .headerMismatch _ => true
  | .oversizedPayloadField _ => true
  | .frameTooLarge _ => false
  | .checksumMismatch _ _ => true
  | .tooShort _ => false
  | .linkTimeout => false

/-- The event of a candidate frame is one of the loop's: DECODE finds no candidate too short and no distance that is the sentinel
(rules R88 and R92). -/
theorem isLoopEvent_candidateResult (t : Byte) (p : List Byte) (x : Half) :
    isLoopEvent (resultEvent (candidateResult t p x)) = true := by
  unfold candidateResult
  split
  · rfl
  · split
    · rfl
    · split
      · next d _ =>
        by_cases hd : d = NO_TARGET
        · rw [if_pos hd]; rfl
        · rw [if_neg hd]; exact bne_iff_ne.2 hd
      · rfl

/-- Every pass of the loop emits one of the loop's events. -/
theorem isLoopEvent_of_decoded {buf : List Byte} {i : Instr} {p : Pass} (hd : decodeFront buf = .ok i)
    (hr : rowPass i = some p) : isLoopEvent p.event = true := by
  have hcase := frontCase buf
  rw [hd] at hcase
  cases hcase with
  | header hne _ =>
    rw [rowPass_rejHeaderMismatch (bne_iff_ne.2 hne)] at hr
    cases hr; rfl
  | oversized hl =>
    rw [rowPass_rejOversizedPayloadField (decide_eq_true hl)] at hr
    cases hr; rfl
  | candidate hp =>
    rw [rowPass_candidateResult hp] at hr
    cases hr
    exact isLoopEvent_candidateResult _ _ _

/-- The loop emits its own events only (rule R80). -/
theorem isLoopEvent_of_syncLoop {buf buf' : List Byte} {evs : List Event} (h : syncLoop buf = .ok (buf', evs)) :
    ∀ e ∈ evs, isLoopEvent e = true := by
  induction hlen : buf.length using Nat.strong_induction_on generalizing buf buf' evs with
  | _ len ih =>
    cases hd : decodeFront buf with
    | error r =>
      have hs : stable buf = true := (stable_iff buf).2 (by rcases decodeFront_error hd with rfl | rfl <;> simp [hd])
      rw [syncLoop_of_stable hs] at h
      cases h
      exact fun e he => absurd he List.not_mem_nil
    | ok i =>
      obtain ⟨n, ev, hr, hn, hn', -⟩ := rowPass_of_decoded hd
      obtain ⟨k, evs', hrest, -⟩ := syncLoop_spec (buf.drop n)
      rw [syncLoop_pass hd hr, hrest] at h
      cases h
      have hshort : (buf.drop n).length < len := by rw [List.length_drop]; omega
      exact List.forall_mem_cons.2 ⟨isLoopEvent_of_decoded hd hr, ih _ hshort hrest rfl⟩

/-- An event that is no distance, or a distance that is not the sentinel (rule R113). -/
def distanceInRange : Event → Bool
  | .frameDistance d => d != NO_TARGET
  | _ => true

theorem distanceInRange_of_isLoopEvent {e : Event} (h : isLoopEvent e = true) : distanceInRange e = true := by
  cases e with
  | frameDistance d => exact h
  | _ => rfl

/-- A row emits a distance only within its constraint, which shuts the sentinel out (rules R92 and R93). -/
theorem distanceInRange_of_rowPass {i : Instr} {p : Pass} (h : rowPass i = some p) : distanceInRange p.event = true := by
  cases i with
  | byte _ | reset | init | rxTick | lmTick | diag | startCmd => cases h
  | frameDistance t payload =>
    simp only [rowPass, distancePass, Instr.wellFormed, Bool.and_eq_true, decide_eq_true_eq, bne_iff_ne] at h
    split at h
    · next hwf =>
      split at h
      · next d hd =>
        cases h
        rw [hd] at hwf
        exact bne_iff_ne.2 fun hn => hwf.2 (congrArg some hn)
      · cases h
    · cases h
  | _ =>
    simp only [rowPass, noTargetPass, insufficientPass, headerMismatchPass, oversizedPass, tooLargePass, checksumPass,
      tooShortPass] at h
    split at h
    · cases h; rfl
    · cases h

/-! ### BYTE -/

/-- At a full buffer BYTE discards every byte and reports the overflow (rules R63 and R69). -/
theorem byteBlock_of_full {b : Byte} {buf : List Byte} (h : CAP ≤ buf.length) :
    byteBlock b buf = .ok ([], [.bufferOverflow]) := by
  rw [byteBlock, append, if_neg (Nat.not_lt.2 h)]

/-- BYTE emits the loop's events, or the overflow. -/
theorem distanceInRange_of_byteBlock {b : Byte} {buf buf' : List Byte} {evs : List Event}
    (h : byteBlock b buf = .ok (buf', evs)) : ∀ e ∈ evs, distanceInRange e = true := by
  by_cases hcap : buf.length < CAP
  · rw [byteBlock_of_lt hcap] at h
    exact fun e he => distanceInRange_of_isLoopEvent (isLoopEvent_of_syncLoop h e he)
  · rw [byteBlock_of_full (Nat.le_of_not_lt hcap)] at h
    cases h
    exact List.forall_mem_cons.2 ⟨rfl, fun e he => absurd he List.not_mem_nil⟩

/-- BYTE leaves the window and the events of the block (rule R68). -/
theorem exec_byte {s : State} {b : Byte} {buf : List Byte} {evs : List Event} (h : byteBlock b s.window = .ok (buf, evs)) :
    exec (.byte b) s = .next (s.afterBlock buf evs) := by
  change finishBlock Config.hyst s.enterBlock (byteBlock b s.window) = _
  rw [h]
  rfl

/-- Everything a completed BYTE did. -/
theorem exec_byte_cases {s t : State} {b : Byte} (h : exec (.byte b) s = .next t) :
    ∃ k evs, byteBlock b s.window = .ok ((s.window ++ [b]).drop k, evs) ∧ k ≤ (s.window ++ [b]).length ∧
      stable ((s.window ++ [b]).drop k) = true ∧ t = s.afterBlock ((s.window ++ [b]).drop k) evs := by
  obtain ⟨k, evs, hblock, hk, hstable, -⟩ := byteBlock_spec b s.window
  rw [exec_byte hblock] at h
  cases h
  exact ⟨k, evs, hblock, by rw [List.length_append]; exact hk, hstable, rfl⟩

/-- Settles O12: below the capacity the block is the loop, at the capacity the overflow. -/
theorem byteResult : Obligations.ByteResult := by
  refine fun s b => ⟨fun hlt => ?_, fun hfull => exec_byte (byteBlock_of_full hfull)⟩
  obtain ⟨k, evs, hloop, -⟩ := syncLoop_spec (s.window ++ [b])
  exact ⟨_, evs, hloop, exec_byte (by rw [byteBlock_of_lt hlt, hloop])⟩

/-- Settles O16: the window left is a rest of the longer window. -/
theorem byteFrame : Obligations.ByteFrame := by
  intro s t b h
  obtain ⟨k, evs, -, hk, -, rfl⟩ := exec_byte_cases h
  obtain ⟨hstarted, hrxq, hnow, htxq, hline, hdiag, hport, hmode, halone⟩ :=
    afterBlock_frame s ((s.window ++ [b]).drop k) evs
  have hread := afterBlock_read s hk evs
  rw [List.length_append, List.length_singleton, State.length_window] at hread
  exact ⟨hstarted, hrxq, hnow, htxq, hline, hdiag, hport, hmode, halone, hread⟩

/-- Settles O17: the loop stops on a stable window, and the overflow leaves none. -/
theorem byteLeavesStable : Obligations.ByteLeavesStable := by
  intro s t b h
  obtain ⟨k, evs, -, -, hstable, rfl⟩ := exec_byte_cases h
  rw [window_afterBlock, len_afterBlock]
  exact ⟨hstable, length_of_stable hstable⟩

/-- From a stable window BYTE is the loop on at most 41 bytes. -/
theorem exec_byte_of_stable_window {s t : State} {b : Byte} (hs : stable s.window = true) (h : exec (.byte b) s = .next t) :
    ∃ buf evs, syncLoop (s.window ++ [b]) = .ok (buf, evs) ∧ t.trace = s.trace ++ evs ∧ (s.window ++ [b]).length ≤ 41 := by
  have h40 := length_of_stable hs
  obtain ⟨k, evs, hblock, -, -, rfl⟩ := exec_byte_cases h
  rw [byteBlock_of_lt (by rw [CAP]; omega)] at hblock
  exact ⟨_, evs, hblock, trace_afterBlock s _ evs, by rw [List.length_append, List.length_singleton]; omega⟩

/-- Settles O18: no event is emitted while fewer than 7 of the 41 bytes are left. -/
theorem byteEventBound : Obligations.ByteEventBound := by
  intro s t b hs h
  obtain ⟨buf, evs, hloop, htrace, h41⟩ := exec_byte_of_stable_window hs h
  obtain ⟨k, evs', hloop', -, -, -, hbound⟩ := syncLoop_spec (s.window ++ [b])
  rw [hloop] at hloop'
  cases hloop'
  exact ⟨evs, htrace, by omega⟩

/-- Settles O19: the three events are not the loop's. -/
theorem unreachableEvents : Obligations.UnreachableEvents := by
  intro s t b hs h
  obtain ⟨buf, evs, hloop, htrace, -⟩ := exec_byte_of_stable_window hs h
  have hev (e : Event) (hne : isLoopEvent e = false) : e ∉ evs := fun he => by
    rw [isLoopEvent_of_syncLoop hloop e he] at hne
    cases hne
  exact ⟨evs, htrace, hev _ rfl, fun n => hev _ rfl, fun n => hev _ rfl⟩

end Sys2Proof.Machine
end

section
/-! PROOFS. The frame and reject rows (rules R54, R72 to R74, R77, R78): each runs its pass and the loop after it, or stops. -/

namespace Sys2Proof.Machine

/-! ### Where the rows complete -/

/-- A row within its constraint runs its pass (log 5). -/
theorem exec_of_rowPass {i : Instr} {p : Pass} (h : rowPass i = some p) (s : State) : ∃ m, exec i s = execRow m (some p) s := by
  cases i with
  | byte _ | reset | init | rxTick | lmTick | diag | startCmd => cases h
  | _ => rw [← h]; exact ⟨_, rfl⟩

/-- A row that drops bytes completes where they are there: the event, then the loop on what follows (rules R70, R72, R73, R77
and R78). -/
theorem exec_of_drop {i : Instr} {n : Nat} {ev : Event} (h : rowPass i = some ⟨.drop n, ev⟩) {s : State}
    (hn : n ≤ s.window.length) :
    ∃ k evs, syncLoop (s.window.drop n) = .ok (s.window.drop k, evs) ∧ k ≤ s.window.length ∧
      stable (s.window.drop k) = true ∧ exec i s = .next (s.afterBlock (s.window.drop k) (ev :: evs)) := by
  obtain ⟨m, hm⟩ := exec_of_rowPass h s
  obtain ⟨k, evs, hloop, hk, hstable, -⟩ := syncLoop_spec (s.window.drop n)
  rw [List.drop_drop] at hloop hstable
  rw [List.length_drop] at hk
  refine ⟨n + k, evs, hloop, by omega, hstable, hm.trans ?_⟩
  simp only [execRow, passThenLoop, dropFront, if_neg (Nat.not_lt.2 hn), hloop]
  rfl

/-- A row that drops bytes completes where they are there. -/
theorem exec_of_drop_result {i : Instr} {n : Nat} {ev : Event} (h : rowPass i = some ⟨.drop n, ev⟩) {s : State}
    {rest : List Byte} (hn : n ≤ s.window.length) (hrest : s.window.drop n = rest) :
    ∃ buf evs, syncLoop rest = .ok (buf, evs) ∧ exec i s = .next (s.afterBlock buf (ev :: evs)) := by
  obtain ⟨k, evs, hloop, -, -, hexec⟩ := exec_of_drop h hn
  exact ⟨_, evs, by rw [← hrest, hloop], hexec⟩

/-- A row that drops one byte completes where there is one (rules R72, R73 and R78). -/
theorem exec_of_drop_one {i : Instr} {ev : Event} (h : rowPass i = some ⟨.drop 1, ev⟩) {s : State} {b : Byte}
    {rest : List Byte} (hw : s.window = b :: rest) :
    ∃ buf evs, syncLoop rest = .ok (buf, evs) ∧ exec i s = .next (s.afterBlock buf (ev :: evs)) :=
  exec_of_drop_result h (by rw [hw]; simp) (by rw [hw]; rfl)

/-- Settles O20: the row's pass drops the frame. -/
theorem frameDistanceResult : Obligations.FrameDistanceResult := by
  intro s t p lo hi h14 hp hlo hhi hne hlen
  have hd : u16le lo hi ≠ NO_TARGET := fun h => hne ((u16le_eq_noTarget_iff lo hi).1 h)
  exact exec_of_drop_result (rowPass_frameDistance h14 hp (distanceField_frameSpan hlo hhi) hd) hlen rfl

/-- Settles O21: the row's pass drops the frame. -/
theorem frameNoTargetResult : Obligations.FrameNoTargetResult := by
  intro s t p h14 hp hlo hhi hlen
  have hd : distanceField (frameSpan t p) = some NO_TARGET := distanceField_frameSpan hlo hhi
  have hwf : (Instr.frameNoTarget t p).wellFormed = true := by
    simp [Instr.wellFormed, DIST_MIN_PAYLOAD, MAX_PAYLOAD, h14, hp, hd]
  exact exec_of_drop_result (rowPass_frameNoTarget hwf) hlen rfl

/-- Settles O22: the row's pass drops the frame. -/
theorem frameInsufficientResult : Obligations.FrameInsufficientResult := fun _ _ _ h13 hlen =>
  exec_of_drop_result (rowPass_frameInsufficient (decide_eq_true (Nat.lt_succ_of_le h13))) hlen rfl

/-- Settles O23: the row's pass drops one byte. -/
theorem headerMismatchResult : Obligations.HeaderMismatchResult := fun _ _ _ _ _ _ _ hne hw =>
  exec_of_drop_one (rowPass_rejHeaderMismatch (bne_iff_ne.2 hne)) hw

/-- Settles O24: the row's pass drops one byte; and a front that decodes to the row is within its constraint. -/
theorem oversizedResult : Obligations.OversizedResult := by
  refine ⟨fun s t b l rest hl hw => ?_, fun t l rest => ⟨fun h => ?_, fun hl => ?_⟩⟩
  · exact exec_of_drop_one (rowPass_rejOversizedPayloadField (decide_eq_true hl)) hw
  · exact of_decide_eq_true (decodeFront_wellFormed h)
  · exact decodeFront_of_case (.oversized hl)

/-- Settles O25: the row's pass clears the window and stops. -/
theorem frameTooLargeResult : Obligations.FrameTooLargeResult := by
  intro s t l h
  obtain ⟨m, hm⟩ := exec_of_rowPass (rowPass_rejFrameTooLarge (t := t) (decide_eq_true h)) s
  exact hm

/-- Settles O26: the row's pass drops one byte. -/
theorem checksumMismatchResult : Obligations.ChecksumMismatchResult := by
  intro s t b p x rest hp hx hw
  have hwf : (Instr.rejChecksumMismatch t p x).wellFormed = true :=
    Bool.and_eq_true_iff.2 ⟨decide_eq_true hp, bne_iff_ne.2 hx⟩
  exact exec_of_drop_one (rowPass_rejChecksumMismatch hwf) hw

/-- Settles O27: the row's pass drops one byte. -/
theorem tooShortResult : Obligations.TooShortResult := fun _ _ _ _ hn hw =>
  exec_of_drop_one (rowPass_rejTooShort (decide_eq_true hn)) hw

/-! ### Where the rows stop -/

/-- A row outside its constraint is refused by its name (rule R87; log 26). -/
theorem execRow_of_illFormed {m : String} {wf : Bool} {pass : Option Pass} {s : State} (h : wf = false) :
    execRow m (if wf = true then pass else none) s = .refused (.outsideClass m) := by
  subst h
  rfl

/-- A row that would drop more than there is faults (rules R64 and R130). -/
theorem exec_of_drop_past_end {i : Instr} {n : Nat} {ev : Event} (h : rowPass i = some ⟨.drop n, ev⟩) {s : State}
    (hn : s.window.length < n) : exec i s = .fault .dropPastEnd := by
  obtain ⟨m, hm⟩ := exec_of_rowPass h s
  rw [hm]
  simp only [execRow, passThenLoop, dropFront, if_pos hn, finishBlock]

/-- A row that drops one byte faults on an empty window (rules R64 and R130). -/
theorem exec_of_drop_one_empty {i : Instr} {ev : Event} (h : rowPass i = some ⟨.drop 1, ev⟩) {s : State}
    (hw : s.window = []) : exec i s = .fault .dropPastEnd :=
  exec_of_drop_past_end h (by rw [hw]; exact Nat.one_pos)

/-- Settles O28: each row's pass exists exactly within its constraint, and drops more than there is. -/
theorem rowsStop : Obligations.RowsStop := by
  refine fun s => ⟨fun t p => ⟨execRow_of_illFormed, fun hwf hlen => ?_⟩,
    fun t p => ⟨execRow_of_illFormed, fun hwf hlen => exec_of_drop_past_end (rowPass_frameNoTarget hwf) hlen⟩,
    fun t p => ⟨execRow_of_illFormed, fun hwf hlen => exec_of_drop_past_end (rowPass_frameInsufficient hwf) hlen⟩,
    fun h0 h1 h2 h3 => ⟨execRow_of_illFormed, fun hwf hw => exec_of_drop_one_empty (rowPass_rejHeaderMismatch hwf) hw⟩,
    fun t l => ⟨execRow_of_illFormed, fun hwf hw => exec_of_drop_one_empty (rowPass_rejOversizedPayloadField hwf) hw⟩,
    fun t p x => ⟨execRow_of_illFormed, fun hwf hw => exec_of_drop_one_empty (rowPass_rejChecksumMismatch hwf) hw⟩,
    fun n => ⟨execRow_of_illFormed, fun hwf hw => exec_of_drop_one_empty (rowPass_rejTooShort hwf) hw⟩,
    fun t l => execRow_of_illFormed⟩
  obtain ⟨d, hpass⟩ := rowPass_frameDistance_of_wellFormed hwf
  exact exec_of_drop_past_end hpass hlen

/-! ### What a completed row did -/

/-- The rows of the buffer front, as against the operation words and the outbound command (rules R46 and R54). -/
def isRow : Instr → Bool
  | .byte _ => false
  | .reset => false
  | .init => false
  | .rxTick => false
  | .lmTick => false
  | .diag => false
  | .startCmd => false
  | _ => true

/-- A row that completes is within its constraint. -/
theorem rowPass_of_exec {i : Instr} (hrow : isRow i = true) {s t : State} (h : exec i s = .next t) :
    ∃ p, rowPass i = some p := by
  have hm : ∃ m, exec i s = execRow m (rowPass i) s := by
    cases i with
    | byte _ | reset | init | rxTick | lmTick | diag | startCmd => cases hrow
    | _ => exact ⟨_, rfl⟩
  obtain ⟨m, hm⟩ := hm
  cases hp : rowPass i with
  | some p => exact ⟨p, rfl⟩
  | none => rw [hm, hp] at h; cases h

/-- Everything a completed row did: the window left is a rest of what there was and stable, and no event carries a distance out of
range (rules R70, R79 and R113). -/
theorem exec_row_cases {i : Instr} (hrow : isRow i = true) {s t : State} (h : exec i s = .next t) :
    ∃ k evs, k ≤ s.window.length ∧ stable (s.window.drop k) = true ∧ t = s.afterBlock (s.window.drop k) evs ∧
      ∀ e ∈ evs, distanceInRange e = true := by
  obtain ⟨⟨recovery, ev⟩, hp⟩ := rowPass_of_exec hrow h
  have hev : distanceInRange ev = true := distanceInRange_of_rowPass hp
  cases recovery with
  | clearStop =>
    obtain ⟨m, hm⟩ := exec_of_rowPass hp s
    rw [hm] at h
    cases h
    refine ⟨s.window.length, [ev], Nat.le_refl _, by rw [List.drop_length]; rfl, by rw [List.drop_length]; rfl, ?_⟩
    exact List.forall_mem_cons.2 ⟨hev, fun e he => absurd he List.not_mem_nil⟩
  | drop n =>
    by_cases hn : n ≤ s.window.length
    · obtain ⟨k, evs, hloop, hk, hstable, hexec⟩ := exec_of_drop hp hn
      rw [hexec] at h
      cases h
      refine ⟨k, ev :: evs, hk, hstable, rfl, List.forall_mem_cons.2 ⟨hev, fun e he => ?_⟩⟩
      exact distanceInRange_of_isLoopEvent (isLoopEvent_of_syncLoop hloop e he)
    · rw [exec_of_drop_past_end hp (Nat.lt_of_not_le hn)] at h
      cases h

/-- Settles O29: the window left is a rest of the window there was. -/
theorem rowFrame : Obligations.RowFrame := by
  intro s t i hreset hinit hrx hlm hdiag hstart hbyte h
  have hrow : isRow i = true := by
    cases i with
    | byte b => exact absurd rfl (hbyte b)
    | reset | init | rxTick | lmTick | diag | startCmd => contradiction
    | _ => rfl
  obtain ⟨k, evs, hk, hstable, rfl, -⟩ := exec_row_cases hrow h
  obtain ⟨hstarted, hrxq, hnow, htxq, hline, hdiagLog, hport, hmode, halone⟩ := afterBlock_frame s (s.window.drop k) evs
  have hread := afterBlock_read s hk evs
  rw [State.length_window] at hread
  exact ⟨hstarted, hrxq, hnow, htxq, hline, hdiagLog, hport, hmode, halone, by rwa [window_afterBlock], hread⟩

end Sys2Proof.Machine
end

section
/-! PROOFS. The publisher on a distance, by what was published last and by the hysteresis test (rules R93, R105, R107). -/

namespace Sys2Proof.Machine

/-! ### The hysteresis test -/

section
variable {hyst : HystTest} {draw d0 d1 : Nat}

/-- In binary32 and binary64 the answer is open for a change of exactly 10 mm (rule R107). -/
theorem hysteresisIsOpen_of_binary (hfmt : hyst.fmt = .binary32 ∨ hyst.fmt = .binary64) :
    hysteresisIsOpen hyst.fmt d0 d1 = decide (changeMm d0 d1 = 10) := by
  rcases hfmt with h | h <;> rw [h] <;> rfl

/-- In binary32 and binary64 the test decides every other change (rule R107). -/
theorem hysteresisPasses_of_binary (hfmt : hyst.fmt = .binary32 ∨ hyst.fmt = .binary64) :
    hysteresisPasses hyst draw d0 d1 = if changeMm d0 d1 = 10 then hyst.eq10 draw d0 d1 else decide (10 < changeMm d0 d1) := by
  rcases hfmt with h | h <;> simp only [hysteresisPasses, h] <;> rfl

/-- In another format every answer is open (rule R107). -/
theorem hysteresisIsOpen_of_other {k : Nat} (h : hyst.fmt = .other k) : hysteresisIsOpen hyst.fmt d0 d1 = true := by
  rw [h]
  rfl

theorem hysteresisPasses_of_other {k : Nat} (h : hyst.fmt = .other k) :
    hysteresisPasses hyst draw d0 d1 = hyst.other draw d0 d1 := by
  simp only [hysteresisPasses, h]

end

/-! ### A distance, by what was published last -/

section
variable (hyst : HystTest) (d : Nat) {s : State}

/-- The first distance, and the first after "no target", is published (rule R105). -/
theorem publishDistance_of_none (h : s.lastPublished = .unset ∨ s.lastPublished = .noTarget) :
    publishDistance hyst d s = s.publish (.metres ⟨d⟩) (.distance ⟨d⟩) := by
  rcases h with h | h <;> simp only [publishDistance, h]

variable {hyst d} {p : Metre} (h : s.lastPublished = .distance p)
include h

/-- An answer that is not open draws nothing (rules R105 and R107). -/
theorem publishDistance_of_closed (hopen : hysteresisIsOpen hyst.fmt p.mm d = false) :
    publishDistance hyst d s =
      if hysteresisPasses hyst s.draws p.mm d then s.publish (.metres ⟨d⟩) (.distance ⟨d⟩) else s := by
  simp only [publishDistance, h, hopen, Bool.false_eq_true, if_false]

/-- An open answer takes a fresh draw (rules R105 and R107). -/
theorem publishDistance_of_open (hopen : hysteresisIsOpen hyst.fmt p.mm d = true) :
    publishDistance hyst d s =
      if hysteresisPasses hyst s.draws p.mm d then
        ({ s with draws := s.draws + 1 } : State).publish (.metres ⟨d⟩) (.distance ⟨d⟩)
      else { s with draws := s.draws + 1 } := by
  simp only [publishDistance, h, hopen, if_true]

section
variable (hfmt : hyst.fmt = .binary32 ∨ hyst.fmt = .binary64)
include hfmt

/-- A change of 11 mm or more publishes (rule R107). -/
theorem publishDistance_of_above (hd : 10 < changeMm p.mm d) :
    publishDistance hyst d s = s.publish (.metres ⟨d⟩) (.distance ⟨d⟩) := by
  have hne : changeMm p.mm d ≠ 10 := by omega
  rw [publishDistance_of_closed h (by rw [hysteresisIsOpen_of_binary hfmt, decide_eq_false hne]),
    hysteresisPasses_of_binary hfmt, if_neg hne, if_pos (decide_eq_true hd)]

/-- A change of 9 mm or less does not (rule R107). -/
theorem publishDistance_of_below (hd : changeMm p.mm d < 10) : publishDistance hyst d s = s := by
  have hne : changeMm p.mm d ≠ 10 := by omega
  rw [publishDistance_of_closed h (by rw [hysteresisIsOpen_of_binary hfmt, decide_eq_false hne]),
    hysteresisPasses_of_binary hfmt, if_neg hne, if_neg (by rw [decide_eq_true_eq]; omega)]

/-- A change of exactly 10 mm publishes as the open answer says (rule R107, D11). -/
theorem publishDistance_of_exact (hd : changeMm p.mm d = 10) :
    publishDistance hyst d s =
      if hyst.eq10 s.draws p.mm d then
        ({ s with draws := s.draws + 1 } : State).publish (.metres ⟨d⟩) (.distance ⟨d⟩)
      else { s with draws := s.draws + 1 } := by
  rw [publishDistance_of_open h (by rw [hysteresisIsOpen_of_binary hfmt, decide_eq_true hd]),
    hysteresisPasses_of_binary hfmt, if_pos hd]

end

/-- In another format every change publishes as the open answer says (rule R107). -/
theorem publishDistance_of_other {k : Nat} (hfmt : hyst.fmt = .other k) :
    publishDistance hyst d s =
      if hyst.other s.draws p.mm d then
        ({ s with draws := s.draws + 1 } : State).publish (.metres ⟨d⟩) (.distance ⟨d⟩)
      else { s with draws := s.draws + 1 } := by
  rw [publishDistance_of_open h (hysteresisIsOpen_of_other hfmt), hysteresisPasses_of_other hfmt]

end

/-- Settles O50: the cases of the publisher, on the state whose activity is refreshed. -/
theorem distancePublishes : Obligations.DistancePublishes := by
  refine fun hyst d s => ⟨fun h => publishDistance_of_none hyst d.toNat (s := s.touchActivity) h, fun p h => ?_⟩
  have hp : s.touchActivity.lastPublished = .distance p := h
  refine ⟨fun hfmt => ⟨fun hd => ?_, fun hd => ?_, fun hd => ?_⟩, fun k hfmt => publishDistance_of_other hp hfmt⟩
  · exact publishDistance_of_above hp hfmt (by rw [changeMm]; omega)
  · exact publishDistance_of_below hp hfmt (by rw [changeMm]; omega)
  · exact publishDistance_of_exact hp hfmt (by rw [changeMm]; omega)

/-- Settles O60: the distance field 0 is not the sentinel, and 0 mm is the float zero in every format. -/
theorem zeroPublishedAsZero : Obligations.ZeroPublishedAsZero := by
  refine ⟨fun t p h14 hp hlo hhi => ?_, fun hyst s h => ?_, fun fmt => congrArg some (metreFloat_zero fmt)⟩
  · have hd : distanceField (frameSpan t p) = some 0 := distanceField_frameSpan hlo hhi
    rw [frameBytes, decodeFrame_candidate t p _ (by omega), candidateResult_of_distanceField h14 hd]
    rfl
  · have hpub : deliver hyst (.frameDistance 0) s = s.touchActivity.publish (.metres ⟨0⟩) (.distance ⟨0⟩) :=
      publishDistance_of_none hyst 0 (s := s.touchActivity) h
    rw [hpub, consumerSaw_publish, publishedFloat, metreFloat_zero]
    rfl

end Sys2Proof.Machine
end

section
/-! PROOFS. What events delivered one after another leave in the environment's fields (rules R100, R104 to R106, R108, R113). -/

namespace Sys2Proof.Machine

/-! ### What a publication adds -/

/-- A value the consumer may receive: NaN, or a distance of 0 to 65534 mm (rules R93 and R108). -/
def receivable (v : PublishValue) : Prop := v = .nan ∨ ∃ d, d ≤ 65534 ∧ v = .metres ⟨d⟩

/-- A 16-bit value other than the sentinel is at most 65534. -/
theorem toNat_le_of_ne_noTarget {d : Half} (h : d ≠ NO_TARGET) : d.toNat ≤ 65534 := by
  have hne : d.toNat ≠ 65535 := fun hd => h (BitVec.eq_of_toNat_eq hd)
  have hlt : d.toNat < 65536 := d.isLt
  omega

/-- The publisher publishes a distance and remembers it, or leaves both as they were (rule R105). -/
theorem publishDistance_published (hyst : HystTest) (d : Nat) (s : State) :
    ((publishDistance hyst d s).published = s.published ∧
      (publishDistance hyst d s).lastPublished = s.lastPublished) ∨
    ((publishDistance hyst d s).published = s.published ++ [.metres ⟨d⟩] ∧
      (publishDistance hyst d s).lastPublished = .distance ⟨d⟩) := by
  cases h : s.lastPublished with
  | unset => rw [publishDistance_of_none hyst d (.inl h)]; exact .inr ⟨rfl, rfl⟩
  | noTarget => rw [publishDistance_of_none hyst d (.inr h)]; exact .inr ⟨rfl, rfl⟩
  | distance p =>
    cases hopen : hysteresisIsOpen hyst.fmt p.mm d with
    | false =>
      rw [publishDistance_of_closed h hopen]
      split
      · exact .inr ⟨rfl, rfl⟩
      · exact .inl ⟨rfl, h⟩
    | true =>
      rw [publishDistance_of_open h hopen]
      split
      · exact .inr ⟨rfl, rfl⟩
      · exact .inl ⟨rfl, h⟩

/-! ### Events delivered one after another -/

/-- How the environment stands in `t` after it received the events `evs`, having stood as in `s`: a success sets the activity, and
what is published is receivable and comes with a success only (rules R100, R104 to R106, R113, R114). -/
structure Received (s t : State) (evs : List Event) : Prop where
  now : t.now = s.now
  activity : t.lastActivity = if evs.any isSuccess then s.now else s.lastActivity
  published : ∃ vs, t.published = s.published ++ vs ∧ (∀ v ∈ vs, receivable v) ∧ (evs.any isSuccess = false → vs = [])
  remembered : evs.any isSuccess = false → t.lastPublished = s.lastPublished
  rangeKept : publishedInRange s.lastPublished = true → publishedInRange t.lastPublished = true

theorem Received.nil {s t : State} (hnow : t.now = s.now) (hact : t.lastActivity = s.lastActivity)
    (hpub : t.published = s.published) (hlast : t.lastPublished = s.lastPublished) : Received s t [] :=
  ⟨hnow, hact, ⟨[], by simpa using hpub, by simp, fun _ => rfl⟩, fun _ => hlast, fun h => by rwa [hlast]⟩

theorem Received.append {s t u : State} {evs evs' : List Event} (h : Received s t evs) (h' : Received t u evs') :
    Received s u (evs ++ evs') := by
  obtain ⟨vs, hpub, hrange, hquiet⟩ := h.published
  obtain ⟨vs', hpub', hrange', hquiet'⟩ := h'.published
  have hany : (evs ++ evs').any isSuccess = false → evs.any isSuccess = false ∧ evs'.any isSuccess = false := by
    rw [List.any_append, Bool.or_eq_false_iff]
    exact id
  refine ⟨h'.now.trans h.now, ?_, ⟨vs ++ vs', ?_, ?_, ?_⟩, ?_, fun hr => h'.rangeKept (h.rangeKept hr)⟩
  · rw [h'.activity, h.activity, h.now, List.any_append]
    cases evs.any isSuccess <;> cases evs'.any isSuccess <;> rfl
  · rw [hpub', hpub, List.append_assoc]
  · exact List.forall_mem_append.2 ⟨hrange, hrange'⟩
  · exact fun hq => by rw [hquiet (hany hq).1, hquiet' (hany hq).2]; rfl
  · exact fun hq => (h'.remembered (hany hq).2).trans (h.remembered (hany hq).1)

/-- What a success publishes is receivable, and what is remembered of it is in range (rules R93, R104 to R106). -/
theorem deliver_published_of_success {e : Event} (hs : isSuccess e = true) (he : distanceInRange e = true) (hyst : HystTest)
    (s : State) :
    ∃ vs, (deliver hyst e s).published = s.published ++ vs ∧ (∀ v ∈ vs, receivable v) ∧
      (publishedInRange s.lastPublished = true → publishedInRange (deliver hyst e s).lastPublished = true) := by
  cases e with
  | frameDistance d =>
    have hd : d.toNat ≤ 65534 := toNat_le_of_ne_noTarget (bne_iff_ne.1 he)
    rcases publishDistance_published hyst d.toNat s.touchActivity with ⟨hp, hl⟩ | ⟨hp, hl⟩
    · exact ⟨[], by rw [List.append_nil]; exact hp, by simp, fun h => (congrArg publishedInRange hl).trans h⟩
    · exact ⟨[.metres ⟨d.toNat⟩], hp, by simpa using .inr ⟨_, hd, rfl⟩,
        fun _ => (congrArg publishedInRange hl).trans (decide_eq_true hd)⟩
  | frameNoTarget =>
    by_cases hl : s.touchActivity.lastPublished = .noTarget
    · exact ⟨[], by simp [deliver, publishNoTarget_of_noTarget hl], by simp,
        fun h => by rw [deliver, publishNoTarget_of_noTarget hl]; exact h⟩
    · exact ⟨[.nan], by simp [deliver, publishNoTarget_of_ne hl], by simpa using .inl rfl,
        fun _ => by rw [deliver, publishNoTarget_of_ne hl]; rfl⟩
  | frameInsufficient => exact ⟨[], by simp [deliver], by simp, id⟩
  | _ => cases hs

/-- One event delivered (rules R100, R104 to R106). -/
theorem received_deliver {e : Event} (hyst : HystTest) (he : distanceInRange e = true) (s : State) :
    Received s (deliver hyst e s) [e] := by
  cases hs : isSuccess e with
  | false =>
    rw [deliver_of_error hs]
    exact ⟨rfl, by simp [hs], ⟨[], by simp, by simp, fun _ => rfl⟩, fun _ => rfl, id⟩
  | true =>
    have hact := deliver_lastActivity_of_success hs hyst s
    obtain ⟨vs, hvs, hrange, hkept⟩ := deliver_published_of_success hs he hyst s
    exact ⟨(deliver_deliveredFrom hyst e s).now, by simpa [hs] using hact, ⟨vs, hvs, hrange, by simp [hs]⟩, by simp [hs], hkept⟩

theorem received_deliverAll (hyst : HystTest) {evs : List Event} (h : ∀ e ∈ evs, distanceInRange e = true) (s : State) :
    Received s (deliverAll hyst evs s) evs := by
  induction evs generalizing s with
  | nil => exact .nil rfl rfl rfl rfl
  | cons e es ih =>
    obtain ⟨he, hes⟩ := List.forall_mem_cons.1 h
    exact (received_deliver hyst he s).append (ih hes _)

/-- The events of the block that the environment receives: all of them where there is an environment (rules R96 and R101). -/
def receivedEvents (mode : RunMode) (evs : List Event) : List Event := if mode = .system then evs else []

/-- An operation of the block seen by the environment (rules R96 and R101). -/
theorem received_finishBlock {hyst : HystTest} {s t : State} {buf : List Byte} {evs : List Event}
    (h : ∀ e ∈ evs, distanceInRange e = true) (ht : finishBlock hyst s.enterBlock (.ok (buf, evs)) = .next t) :
    Received s t (receivedEvents s.mode evs) := by
  cases ht
  have hmode : ((s.enterBlock.setWindow buf).emit evs).mode = .system ↔ s.mode = .system := s.enterBlock_mode_eq_system
  by_cases hm : s.mode = .system
  · have hall := received_deliverAll hyst h ((s.enterBlock.setWindow buf).emit evs)
    rw [receivedEvents, if_pos hm, deliverInSystem, hmode.2 hm]
    exact ⟨hall.now, hall.activity, hall.published, hall.remembered, hall.rangeKept⟩
  · rw [receivedEvents, if_neg hm, deliverInSystem_of_ne (mt hmode.1 hm)]
    exact .nil rfl rfl rfl rfl

end Sys2Proof.Machine
end

section
/-! PROOFS. The byte drain (rules R97, R99, R137): what RX_TICK feeds, delivers and leaves alone, and that the cut of a stream into
BYTEs and RX_TICKs does not matter (rule R82). -/

namespace Sys2Proof.Machine

/-! ### Everything the byte drain did -/

/-- The block leaves a stable window where it found one (rule R79). -/
theorem stable_of_feedBlock {bs buf buf' : List Byte} {evs : List Event} (hs : stable buf = true)
    (h : feedBlock bs buf = .ok (buf', evs)) : stable buf' = true := by
  induction bs generalizing buf evs with
  | nil => cases h; exact hs
  | cons b bs ih =>
    obtain ⟨k, evs1, hb, -, hmid, -⟩ := byteBlock_spec b buf
    obtain ⟨last, evs2, hrest⟩ := feedBlock_isOk bs ((buf ++ [b]).drop k)
    simp only [feedBlock, hb, hrest] at h
    cases h
    exact ih hmid hrest

/-- BYTE in a system run delivers each of its events (rules R96 and R99). -/
theorem received_byteWith {hyst : HystTest} {b : Byte} {s t : State} (hm : s.mode = .system)
    (ht : byteWith hyst b s = .next t) :
    ∃ evs, t.trace = s.trace ++ evs ∧ t.mode = .system ∧ Received s t evs := by
  obtain ⟨buf, evs, t', hblock, ht', hfrom⟩ := byteWith_spec hyst b s
  obtain rfl : t' = t := Host.Outcome.next.inj (ht'.symm.trans ht)
  rw [byteWith, hblock] at ht
  have hrecv := received_finishBlock (distanceInRange_of_byteBlock hblock) ht
  rw [receivedEvents, if_pos hm] at hrecv
  exact ⟨evs, hfrom.trace, hfrom.mode.trans (s.enterBlock_mode_eq_system.2 hm), hrecv⟩

/-- The byte drain delivers the events of the bytes it feeds, in order (rule R99). -/
theorem received_drainWith {readNone : Nat → Bool} {hyst : HystTest} {k : Nat} {s t : State} (hm : s.mode = .system)
    (h : drainWith readNone hyst k s = .next t) : ∃ evs, t.trace = s.trace ++ evs ∧ Received s t evs := by
  induction k generalizing s with
  | zero => cases h; exact ⟨[], by simp, .nil rfl rfl rfl rfl⟩
  | succ k ih =>
    cases hq : s.rxq with
    | nil =>
      rw [drainWith_of_nil _ _ _ hq] at h
      cases h
      exact ⟨[], by simp, .nil rfl rfl rfl rfl⟩
    | cons b rest =>
      rw [drainWith_succ_of_cons _ _ _ hq] at h
      split at h
      · cases h
        exact ⟨[], by simp, .nil rfl rfl rfl rfl⟩
      · obtain ⟨_, _, u, _, hu, _⟩ := byteWith_spec hyst b { s with rxq := rest, draws := s.draws + 1 }
        obtain ⟨evs, htrace, hmu, hbyte⟩ := received_byteWith (s := { s with rxq := rest, draws := s.draws + 1 }) hm hu
        rw [hu] at h
        obtain ⟨evs', htrace', hrest⟩ := ih hmu h
        have hfirst : Received s u evs := ⟨hbyte.now, hbyte.activity, hbyte.published, hbyte.remembered, hbyte.rangeKept⟩
        exact ⟨evs ++ evs', by rw [htrace', htrace, List.append_assoc], hfirst.append hrest⟩

/-- Everything a byte drain of at most `k` reads did that fed the block `j` bytes and got the events `evs` (rule R99). -/
structure Drained (readNone : Nat → Bool) (k : Nat) (s t : State) (j : Nat) (evs : List Event) : Prop where
  le : j ≤ k
  untouched : Untouched s t
  mode : t.mode = s.mode
  fed : feedBlock (s.rxq.take j) s.window = .ok (t.window, evs)
  buf : t.buf = s.buf ∨ t.buf = Memory.ofBytes t.window
  rxq : t.rxq = s.rxq.drop j
  trace : t.trace = s.trace ++ evs
  received : Received s t evs
  early : j < k → j < s.rxq.length → ∃ n, s.draws ≤ n ∧ n < t.draws ∧ readNone n = true

/-- The byte drain completes in every system run (rule R99). -/
theorem drainWith_drained (readNone : Nat → Bool) (hyst : HystTest) (k : Nat) {s : State} (hm : s.mode = .system) :
    ∃ j evs t, drainWith readNone hyst k s = .next t ∧ Drained readNone k s t j evs := by
  obtain ⟨j, evs, t, hj, -, hnext, huntouched, hmode, hfed, hbuf0, hbuf1, hrxq, htrace, hearly⟩ :=
    drainWith_spec readNone hyst k s (by rw [hm]; nofun)
  obtain ⟨evs', htrace', hrecv⟩ := received_drainWith hm hnext
  obtain rfl : evs' = evs := List.append_cancel_left (htrace'.symm.trans htrace)
  refine ⟨j, evs', t, hnext, hj, huntouched, hmode, hfed, ?_, hrxq, htrace, hrecv, hearly⟩
  rcases Nat.eq_zero_or_pos j with h0 | hpos
  · exact .inl (hbuf0 h0)
  · exact .inr (hbuf1 hpos)

/-- A drain whose reads never answer `None` feeds `k` bytes, or all there are (rules R99 and R137). -/
theorem Drained.all {k j : Nat} {s t : State} {evs : List Event} (h : Drained (fun _ => false) k s t j evs) :
    s.rxq.take j = s.rxq.take k ∧ s.rxq.drop j = s.rxq.drop k := by
  by_cases hlt : j < k ∧ j < s.rxq.length
  · obtain ⟨n, -, -, hn⟩ := h.early hlt.1 hlt.2
    cases hn
  · rcases Nat.lt_or_ge j k with hj | hj
    · have hlen : s.rxq.length ≤ j := by omega
      rw [List.take_of_length_le hlen, List.take_of_length_le (by omega), List.drop_of_length_le hlen,
        List.drop_of_length_le (by omega)]
      exact ⟨rfl, rfl⟩
    · rw [Nat.le_antisymm h.le hj]
      exact ⟨rfl, rfl⟩

/-! ### RX_TICK -/

theorem rxTickWith_of_system (readNone : Nat → Bool) (hyst : HystTest) {s : State} (hm : s.mode = .system) :
    rxTickWith readNone hyst s = drainWith readNone hyst 32 s := inSystem_of_system hm

/-- A completed RX_TICK was the byte drain in a system run (rules R99 and R101). -/
theorem exec_rxTick_cases {s t : State} (h : exec .rxTick s = .next t) :
    s.mode = .system ∧ ∃ j evs, Drained Config.readNone 32 s t j evs := by
  have hm : s.mode = .system := by
    by_contra hm
    rw [show exec .rxTick s = .refused _ from inSystem_of_ne hm] at h
    cases h
  obtain ⟨j, evs, t', hnext, hd⟩ := drainWith_drained Config.readNone Config.hyst 32 hm
  rw [show exec .rxTick s = _ from rxTickWith_of_system _ _ hm, hnext] at h
  cases h
  exact ⟨hm, j, evs, hd⟩

theorem deliverAll_eq_foldl (hyst : HystTest) (evs : List Event) (s : State) :
    deliverAll hyst evs s = evs.foldl (fun u e => deliver hyst e u) s := by
  induction evs generalizing s with
  | nil => rfl
  | cons e es ih => exact ih _

/-- Settles O44: the drain of 32 reads, and one read of it by what the read answers. -/
theorem rxTickResult : Obligations.RxTickResult := by
  refine ⟨fun s hm => ?_, fun s hm => rxTickWith_of_system _ _ hm, fun readNone hyst k s hm => ⟨rfl, drainWith_of_nil _ _ _,
    fun b rest hq => ⟨fun hn => ?_, fun hn => ?_⟩⟩⟩
  · obtain ⟨j, evs, t, hnext, hd⟩ := drainWith_drained Config.readNone Config.hyst 32 hm
    refine ⟨j, evs, t, hd.le, (rxTickWith_of_system _ _ hm).trans hnext, hd.fed, hd.rxq, hd.trace, hd.early,
      fun hs => ?_, fun hs => ⟨?_, ?_, hd.received.remembered hs⟩⟩
    · rw [hd.received.activity, if_pos hs]
    · rw [hd.received.activity, hs, if_neg Bool.false_ne_true]
    · obtain ⟨vs, hpub, -, hquiet⟩ := hd.received.published
      rw [hpub, hquiet hs, List.append_nil]
  · rw [drainWith_succ_of_cons _ _ _ hq, if_pos hn]
  · obtain ⟨buf, evs, hblock, hread⟩ := drainWith_read readNone hyst k hm hq hn
    exact ⟨buf, evs, hblock, by rw [hread, deliverAll_eq_foldl]⟩

/-- Where no read answers `None`, RX_TICK is the block on the first 32 queued bytes (rules R99 and R137). -/
theorem rxTickWith_never_none (hyst : HystTest) {s : State} (hm : s.mode = .system) :
    ∃ t evs, rxTickWith (fun _ => false) hyst s = .next t ∧ t.mode = .system ∧ t.rxq = s.rxq.drop 32 ∧
      feedBlock (s.rxq.take 32) s.window = .ok (t.window, evs) ∧ t.trace = s.trace ++ evs := by
  obtain ⟨j, evs, t, hnext, hd⟩ := drainWith_drained (fun _ => false) hyst 32 hm
  obtain ⟨htake, hdrop⟩ := hd.all
  exact ⟨t, evs, (rxTickWith_of_system _ _ hm).trans hnext, hd.mode.trans hm, by rw [← hdrop, hd.rxq],
    by rw [← htake, hd.fed], hd.trace⟩

/-- Settles O45: the byte drain without an early end. -/
theorem rxTickConsumes : Obligations.RxTickConsumes := by
  intro hyst s hm
  obtain ⟨t, evs, hnext, -, hrxq, hfed, htrace⟩ := rxTickWith_never_none hyst hm
  exact ⟨t, evs, hnext, hrxq, hfed, htrace⟩

/-- Settles O46: the drain leaves these alone, and on an empty queue it reads nothing. -/
theorem rxTickFrame : Obligations.RxTickFrame := by
  intro s t h
  obtain ⟨hm, j, evs, hd⟩ := exec_rxTick_cases h
  obtain ⟨hstarted, hnow, htxq, hline, hdiag, hport, -, -⟩ := hd.untouched
  refine ⟨hstarted, hnow, htxq, hline, hdiag, hd.mode, hport, fun hq => ?_⟩
  rw [show exec .rxTick s = _ from rxTickWith_of_system _ _ hm, drainWith_of_nil _ _ _ hq] at h
  cases h
  rfl

/-! ### The cut of a stream does not matter -/

/-- Two RX_TICKs on one queue, no read answering `None`, are the block on its first 64 bytes (rules R82 and R99). -/
theorem rxTickWith_twice (hyst : HystTest) {s : State} (hm : s.mode = .system) :
    ∃ t u buf evs, rxTickWith (fun _ => false) hyst s = .next t ∧ rxTickWith (fun _ => false) hyst t = .next u ∧
      feedBlock (s.rxq.take 64) s.window = .ok (buf, evs) ∧ u.window = buf ∧ u.trace = s.trace ++ evs ∧
      u.rxq = s.rxq.drop 64 := by
  obtain ⟨t, evs, ht, hmt, hqt, hfed, htrace⟩ := rxTickWith_never_none hyst hm
  obtain ⟨u, evs', hu, -, hqu, hfed', htrace'⟩ := rxTickWith_never_none hyst hmt
  rw [hqt] at hfed' hqu
  refine ⟨t, u, u.window, evs ++ evs', ht, hu, ?_, rfl, by rw [htrace', htrace, List.append_assoc], by rw [hqu, List.drop_drop]⟩
  rw [show (64 : Nat) = 32 + 32 from rfl, List.take_add]
  exact feedBlock_append hfed hfed'

/-- Two RX_TICKs, the second's bytes arriving between them, are the block on all the bytes (rules R82 and R99). -/
theorem rxTickWith_refilled (hyst : HystTest) {s : State} (hm : s.mode = .system) {xs ys : List Byte} (hx : xs.length ≤ 32)
    (hy : ys.length ≤ 32) :
    ∃ t u evs, rxTickWith (fun _ => false) hyst { s with rxq := xs } = .next t ∧
      rxTickWith (fun _ => false) hyst { t with rxq := ys } = .next u ∧
      feedBlock (xs ++ ys) s.window = .ok (u.window, evs) ∧ u.trace = s.trace ++ evs ∧ u.rxq = [] := by
  obtain ⟨t, evs, ht, hmt, -, hfed, htrace⟩ := rxTickWith_never_none hyst (s := { s with rxq := xs }) hm
  obtain ⟨u, evs', hu, -, hqu, hfed', htrace'⟩ := rxTickWith_never_none hyst (s := { t with rxq := ys }) hmt
  have hfed1 : feedBlock xs s.window = .ok (t.window, evs) := by rw [← hfed, List.take_of_length_le hx]; rfl
  have hfed2 : feedBlock ys t.window = .ok (u.window, evs') := by rw [← hfed', List.take_of_length_le hy]; rfl
  exact ⟨t, u, evs ++ evs', ht, hu, feedBlock_append hfed1 hfed2,
    by rw [htrace', htrace, List.append_assoc], hqu.trans (List.drop_of_length_le hy)⟩

/-- Settles O32: each cut is the block on the bytes in order, which has one result. -/
theorem batchingIrrelevant : Obligations.BatchingIrrelevant := by
  refine ⟨fun s b bs => ?_, fun hyst s xs ys hm hx hy => ?_, fun hyst s hm => rxTickWith_twice hyst hm⟩
  · obtain ⟨k, evs1, hblock, -⟩ := byteBlock_spec b s.window
    obtain ⟨buf, evs2, hrest⟩ := feedBlock_isOk bs ((s.window ++ [b]).drop k)
    refine ⟨_, buf, evs1 ++ evs2, evs1, evs2, exec_byte hblock, ?_, trace_afterBlock s _ evs1, ?_, rfl⟩
    · simp only [feedBlock, hblock, hrest]
    · rw [window_afterBlock, hrest]
  · obtain ⟨t, u, evs, ht, hu, hfed, htrace, hqu⟩ := rxTickWith_refilled hyst hm hx hy
    refine ⟨t, u, u.window, evs, ht, hu, hfed, rfl, htrace, hqu, fun hxy => ?_⟩
    obtain ⟨v, evs', hv, -, hqv, hfed', htrace'⟩ := rxTickWith_never_none hyst (s := { s with rxq := xs ++ ys }) hm
    have hone : feedBlock (xs ++ ys) s.window = .ok (v.window, evs') := by
      rw [← hfed', List.take_of_length_le hxy]; rfl
    obtain ⟨hwin, rfl⟩ : u.window = v.window ∧ evs = evs' := by simpa [hfed] using hone
    exact ⟨v, hv, hwin.symm, htrace'.trans htrace.symm, by rw [hqv, hqu, List.drop_of_length_le hxy]⟩

end Sys2Proof.Machine
end

section
/-! PROOFS. RESET, INIT, LM_TICK, DIAG and the start command, each by its case (rules R98, R101 to R103, R109, R125, R126). -/

namespace Sys2Proof.Machine

/-! ### LM_TICK, by the link's state and the clock -/

section
variable {clockBits : Option Nat} {s : State} (hm : s.mode = .system)
include hm

/-- A link that was never started is started (rule R103). -/
theorem lmTickWith_of_unstarted (hs : s.started = false) : lmTickWith clockBits s = .next s.sendStart := by
  simp only [lmTickWith, inSystem_of_system hm, hs, Bool.not_false, if_true]

variable (hs : s.started = true)
include hs

/-- A silence of more than 10000 ms is reported and the start command sent again (rule R103). -/
theorem lmTickWith_of_timedOut (h : 10000 < elapsed clockBits s.now s.lastActivity) :
    lmTickWith clockBits s = .next (s.emit [.linkTimeout]).sendStart := by
  have ht : timedOut clockBits s = true := decide_eq_true h
  simp only [lmTickWith, inSystem_of_system hm, hs, ht, Bool.not_true, Bool.false_eq_true, if_false, if_true]

/-- A shorter one is not (rule R103). -/
theorem lmTickWith_of_quiet (h : elapsed clockBits s.now s.lastActivity ≤ 10000) : lmTickWith clockBits s = .next s := by
  have ht : timedOut clockBits s = false := decide_eq_false (Nat.not_lt.2 h)
  simp only [lmTickWith, inSystem_of_system hm, hs, ht, Bool.not_true, Bool.false_eq_true, if_false]

end

/-- Settles O41: the three cases of LM_TICK, with what sending writes. -/
theorem lmTickResult : Obligations.LmTickResult :=
  ⟨fun _ hm => ⟨lmTickWith_of_unstarted hm, lmTickWith_of_timedOut hm, lmTickWith_of_quiet hm⟩,
    fun _ _ => ⟨rfl, fun _ => rfl⟩⟩

/-- Settles O42: after the timeout the activity is the clock's value, so the next silence is counted from there. -/
theorem oneTimeoutPerInterval : Obligations.OneTimeoutPerInterval := by
  intro s n hm hs hsilent hn
  refine ⟨_, lmTickWith_of_timedOut hm hs hsilent, rfl, fun h => lmTickWith_of_quiet hm rfl ?quiet,
    fun h => ⟨_, lmTickWith_of_timedOut (s := { (s.emit [.linkTimeout]).sendStart with now := n }) hm rfl ?again, rfl⟩⟩
  case quiet => change n - s.now ≤ 10000; omega
  case again => change 10000 < n - s.now; omega

/-! ### RESET -/

/-- Settles O36: the fields of the reset state. -/
theorem resetState : Obligations.ResetState := ⟨rfl, fun _ => rfl, rfl, rfl, rfl⟩

/-- Settles O37: the fields of the state RESET leaves, whose link LM_TICK finds not started. -/
theorem resetResult : Obligations.ResetResult := by
  refine fun s => ⟨_, rfl, rfl, fun _ => rfl, rfl, rfl, rfl, rfl, rfl, rfl, rfl, rfl, rfl, rfl, rfl, rfl,
    s.enterBlock_mode_of_begun, rfl, fun hm n => ?_⟩
  exact lmTickWith_of_unstarted
    (s := { s.enterBlock.setWindow (clear s.window) with
      started := false, lastActivity := 0, lastPublished := .unset, now := n })
    (s.enterBlock_mode_eq_system.2 hm) rfl

/-- Settles O38: the second RESET finds every field it writes written, and the run begun. -/
theorem resetIdempotent : Obligations.ResetIdempotent := by
  refine fun s => ⟨_, rfl, ?_⟩
  cases hm : s.mode <;> simp only [exec, execReset, State.enterBlock, State.setWindow, clear, hm]

/-! ### INIT, DIAG and the start command -/

/-- INIT is refused once the run has begun (rule R101). -/
theorem execInit_of_begun {s : State} (h : s.mode ≠ .fresh) : exec .init s = .refused .initNotFirst := by
  cases hm : s.mode with
  | fresh => exact absurd hm h
  | blockAlone | system => simp only [exec, execInit, hm]

/-- INIT as the first operation creates the component and sends the start command (rule R101). -/
theorem execInit_of_fresh {s : State} (h : s.mode = .fresh) :
    exec .init s = .next { s.setWindow [] with
      started := false, lastActivity := 0, lastPublished := .unset, mode := .system : State }.sendStart := by
  simp only [exec, execInit, h]

/-- Settles O39: INIT by the kind of the run, the others by its not being a system run. -/
theorem initFirstOnce : Obligations.InitFirstOnce := fun _ =>
  ⟨execInit_of_fresh, execInit_of_begun,
    fun hm => ⟨inSystem_of_ne hm, inSystem_of_ne hm, inSystem_of_ne hm, inSystem_of_ne hm⟩⟩

/-- Settles O40: in a system run the operation is SEND_START. -/
theorem sendStartResult : Obligations.SendStartResult := fun _ hm => inSystem_of_system hm

/-- Settles O43: in a system run the operation adds its record. -/
theorem diagResult : Obligations.DiagResult := fun _ hm => inSystem_of_system hm

/-- Settles O53: each field of the reset state; an empty queue fits every depth. -/
theorem invAtReset : Obligations.InvAtReset where
  bufWf := State.reset_wf
  windowStable := rfl
  activityPast := Nat.le_refl 0
  allSent := rfl
  startedInSystem := fun h => absurd h Bool.false_ne_true
  rangeKept := rfl
  queueFits := by
    cases h : Config.rxqDepth with
    | none => rfl
    | some n => exact decide_eq_true (Nat.zero_le n)

end Sys2Proof.Machine
end

section
/-! PROOFS. Everything a completed instruction can have done, said once (`Completed`), and what follows for every instruction: the
transport, the line, the consumer, the faults (rules R98, R99, R102, R108, R111, R130, R132). -/

namespace Sys2Proof.Machine

/-- BYTE and the rows: the instructions that run the block's loop (rule R68; log 5). -/
def isBlockInstr : Instr → Bool
  | .byte _ => true
  | i => isRow i

/-- What an instruction that completes in `t` did to the state `s`. -/
inductive Completed (s : State) : Instr → State → Prop where
  | block {i buf evs} (hi : isBlockInstr i = true) (hstable : stable buf = true) (hrange : ∀ e ∈ evs, distanceInRange e = true) :
      Completed s i (s.afterBlock buf evs)
  | reset : Completed s .reset
      { s.enterBlock.setWindow [] with started := false, lastActivity := 0, lastPublished := .unset }
  | init (hm : s.mode = .fresh) : Completed s .init
      { s.setWindow [] with started := false, lastActivity := 0, lastPublished := .unset, mode := .system : State }.sendStart
  | drain {j evs t} (hm : s.mode = .system) (h : Drained Config.readNone 32 s t j evs) : Completed s .rxTick t
  | linkQuiet (hm : s.mode = .system) : Completed s .lmTick s
  | linkStart (hm : s.mode = .system) : Completed s .lmTick s.sendStart
  | linkTimeout (hm : s.mode = .system) : Completed s .lmTick (s.emit [.linkTimeout]).sendStart
  | diag (hm : s.mode = .system) : Completed s .diag { s with diagLog := s.diagLog ++ [diagRecord s] }
  | startCmd (hm : s.mode = .system) : Completed s .startCmd s.sendStart

/-- An environment operation that completes does so in a system run, with its meaning's answer (rule R101). -/
theorem inSystem_eq_next {m : String} {s t : State} {r : Result} (h : inSystem m s r = .next t) :
    s.mode = .system ∧ r = .next t := by
  by_cases hm : s.mode = .system
  · exact ⟨hm, by rwa [inSystem_of_system hm] at h⟩
  · rw [inSystem_of_ne hm] at h
    cases h

/-- The inversion of `exec`. -/
theorem completed_of_exec {i : Instr} {s t : State} (h : exec i s = .next t) : Completed s i t := by
  cases i with
  | byte b =>
    obtain ⟨k, evs, hblock, -, hstable, rfl⟩ := exec_byte_cases h
    exact .block rfl hstable (distanceInRange_of_byteBlock hblock)
  | reset => cases h; exact .reset
  | init =>
    by_cases hm : s.mode = .fresh
    · rw [execInit_of_fresh hm] at h; cases h; exact .init hm
    · rw [execInit_of_begun hm] at h; cases h
  | rxTick =>
    obtain ⟨hm, j, evs, hd⟩ := exec_rxTick_cases h
    exact .drain hm hd
  | lmTick =>
    obtain ⟨hm, hnext⟩ := inSystem_eq_next h
    split at hnext
    · cases hnext; exact .linkStart hm
    · split at hnext
      · cases hnext; exact .linkTimeout hm
      · cases hnext; exact .linkQuiet hm
  | diag =>
    obtain ⟨hm, hnext⟩ := inSystem_eq_next h
    cases hnext; exact .diag hm
  | startCmd =>
    obtain ⟨hm, hnext⟩ := inSystem_eq_next h
    cases hnext; exact .startCmd hm
  | _ =>
    obtain ⟨k, evs, -, hstable, rfl, hrange⟩ := exec_row_cases rfl h
    exact .block rfl hstable hrange

/-! ### What follows for every instruction -/

/-- Settles O47: the cases of the three operations. -/
theorem environmentFrame : Obligations.EnvironmentFrame := by
  intro s t i hi h
  cases completed_of_exec h with
  | block hblock => rcases hi with rfl | rfl | rfl <;> cases hblock
  | reset | init | drain => rcases hi with hi | hi | hi <;> cases hi
  | linkQuiet | linkStart | linkTimeout =>
    exact ⟨fun _ => rfl, rfl, rfl, rfl, rfl, rfl, rfl, rfl, rfl, fun _ => rfl, nofun, fun h => absurd rfl h⟩
  | diag =>
    exact ⟨fun _ => rfl, rfl, rfl, rfl, rfl, rfl, rfl, rfl, rfl, fun h => absurd rfl h, fun _ => ⟨rfl, rfl, rfl, rfl⟩,
      fun _ => rfl⟩
  | startCmd =>
    exact ⟨fun _ => rfl, rfl, rfl, rfl, rfl, rfl, rfl, rfl, rfl, fun _ => rfl, nofun, fun _ => rfl⟩

/-- Settles O57: only the drain takes from the queue, and it takes from the front. -/
theorem transportUntouched : Obligations.TransportUntouched := by
  intro i s t h
  cases completed_of_exec h with
  | @block _ buf evs =>
    have hb := afterBlock_blockFrom s buf evs
    exact ⟨hb.now, hb.port, fun _ => hb.rxq, 0, hb.rxq⟩
  | @drain j evs t hm hd => exact ⟨hd.untouched.now, hd.untouched.port, fun hne => absurd rfl hne, j, hd.rxq⟩
  | reset | init | linkQuiet | linkStart | linkTimeout | diag | startCmd => exact ⟨rfl, rfl, fun _ => rfl, 0, rfl⟩

/-- Settles O58: the block and the drain leave the line, the outbound queue and the link alone. -/
theorem onlySendsTransmit : Obligations.OnlySendsTransmit := by
  intro i s t h hinit hlm hstart
  cases completed_of_exec h with
  | @block _ buf evs =>
    have hb := afterBlock_blockFrom s buf evs
    exact ⟨hb.line, hb.txq, fun ht => hb.started.symm.trans ht⟩
  | @drain j evs t hm hd =>
    exact ⟨hd.untouched.line, hd.untouched.txq, fun ht => hd.untouched.started.symm.trans ht⟩
  | reset => exact ⟨rfl, rfl, fun ht => absurd ht Bool.false_ne_true⟩
  | diag => exact ⟨rfl, rfl, id⟩
  | init => exact absurd rfl hinit
  | linkQuiet | linkStart | linkTimeout => exact absurd rfl hlm
  | startCmd => exact absurd rfl hstart

/-- An operation of the block as the environment sees it. -/
theorem received_afterBlock {s : State} (buf : List Byte) {evs : List Event} (h : ∀ e ∈ evs, distanceInRange e = true) :
    Received s (s.afterBlock buf evs) (receivedEvents s.mode evs) :=
  received_finishBlock (hyst := Config.hyst) (buf := buf) h rfl

/-- Without a success among the events there is none among those the environment receives. -/
theorem any_receivedEvents {evs : List Event} (mode : RunMode) (h : evs.any isSuccess = false) :
    (receivedEvents mode evs).any isSuccess = false := by
  rw [receivedEvents]
  split
  · exact h
  · rfl

/-- Settles O59: values are published by delivered events only (`Received`). -/
theorem consumerSees : Obligations.ConsumerSees := by
  intro i s t h
  cases completed_of_exec h with
  | @block _ buf evs hi hstable hrange =>
    obtain ⟨vs, hpub, hvs, hquiet⟩ := (received_afterBlock buf hrange).published
    exact ⟨vs, evs, hpub, trace_afterBlock s buf evs, hvs, fun hq => hquiet (any_receivedEvents s.mode hq)⟩
  | @drain j evs t hm hd =>
    obtain ⟨vs, hpub, hvs, hquiet⟩ := hd.received.published
    exact ⟨vs, evs, hpub, hd.trace, hvs, hquiet⟩
  | linkTimeout => exact ⟨[], [.linkTimeout], by simp, rfl, by simp, fun _ => rfl⟩
  | reset | init | linkQuiet | linkStart | diag | startCmd => exact ⟨[], [], by simp, by simp, by simp, fun _ => rfl⟩

/-- An environment operation whose meaning does not fault in a system run never faults (rule R101). -/
theorem inSystem_ne_fault {m : String} {s : State} {r : Result} {f : Fault} (h : s.mode = .system → r ≠ .fault f) :
    inSystem m s r ≠ .fault f := by
  by_cases hm : s.mode = .system
  · rw [inSystem_of_system hm]; exact h hm
  · rw [inSystem_of_ne hm]; nofun

/-- Settles O55: BYTE and the drain always complete, and the others complete or are refused. -/
theorem operationsNeverFault : Obligations.OperationsNeverFault := by
  refine fun s b f => ⟨?byte, nofun, ?init, inSystem_ne_fault fun hm => ?drain, inSystem_ne_fault fun _ => ?link,
    inSystem_ne_fault fun _ => nofun, inSystem_ne_fault fun _ => nofun⟩
  case byte =>
    obtain ⟨k, evs, hblock, -⟩ := byteBlock_spec b s.window
    rw [exec_byte hblock]; nofun
  case init =>
    by_cases hm : s.mode = .fresh
    · rw [execInit_of_fresh hm]; nofun
    · rw [execInit_of_begun hm]; nofun
  case drain =>
    obtain ⟨j, evs, t, hnext, -⟩ := drainWith_drained Config.readNone Config.hyst RX_CAP hm
    rw [hnext]; nofun
  case link =>
    split
    · nofun
    · split <;> nofun

end Sys2Proof.Machine
end

section
/-! PROOFS. The step: it runs what is decoded, or is an action of the transport, or holds the state (rules R7, R56, R98, R110,
R124); and every step keeps the machine's invariant (rules R11, R17, R26, R79, R98, R101, R113). -/

namespace Sys2Proof.Machine

/-! ### What a step does -/

section
variable {s : State}

theorem step_of_front {i : Instr} (hport : s.port = []) (hdec : decodeFront s.window = .ok i) : step s = exec i s := by
  simp only [step, runNext, hport, runFront, hdec]

/-- With nothing presented and a stable window the machine holds its state (rule R124; log 15). -/
theorem step_of_stable (hport : s.port = []) (hstable : stable s.window = true) : step s = .next s := by
  rcases (stable_iff s.window).1 hstable with hdec | hdec <;> simp only [step, runNext, hport, runFront, hdec]

variable {rest : List Input}

theorem step_of_op {w : BitVec 12} {i : Instr} (hport : s.port = .op w :: rest) (hdec : decodeOp w = .ok i) :
    step s = exec i { s with port := rest } := by
  simp only [step, runNext, hport, runInput, runEncoded, decode, hdec]

theorem step_of_command {bs : List Byte} {i : Instr} (hport : s.port = .command bs :: rest)
    (hdec : decodeCommand bs = .ok i) : step s = exec i { s with port := rest } := by
  simp only [step, runNext, hport, runInput, runEncoded, decode, hdec]

theorem step_of_candidate {n : Nat} {i : Instr} (hport : s.port = .candidate n :: rest) (hdec : decodeCandidate n = .ok i) :
    step s = exec i { s with port := rest } := by
  simp only [step, runNext, hport, runInput, runEncoded, decode, hdec]

theorem step_of_clock {t : Nat} (hport : s.port = .clock t :: rest) : step s = clockTo t { s with port := rest } := by
  simp only [step, runNext, hport, runInput]

theorem step_of_receive {bs : List Byte} (hport : s.port = .receive bs :: rest) :
    step s = .next { s with port := rest, rxq := enqueue Config.rxqDepth s.rxq bs } := by
  simp only [step, runNext, hport, runInput, receiveBytes, receiveWith]

end

/-- Settles O10: one lemma for each way an instruction comes to be decoded. -/
theorem stepRunsDecoded : Obligations.StepRunsDecoded := fun _ _ =>
  ⟨fun _ _ => step_of_op, fun _ _ => step_of_command, fun _ _ => step_of_candidate, step_of_front⟩

/-- Bytes that find room queue behind those there, those that find none are lost (rules R11 and R110, D20). -/
theorem enqueue_some (n : Nat) (q bs : List Byte) :
    (q.length + bs.length ≤ n → enqueue (some n) q bs = q ++ bs) ∧ (n ≤ q.length → enqueue (some n) q bs = q) ∧
    (q.length ≤ n → (enqueue (some n) q bs).length ≤ n ∧ q <+: enqueue (some n) q bs ∧ enqueue (some n) q bs <+: q ++ bs) := by
  refine ⟨fun h => ?_, fun h => ?_, fun h => ⟨?_, prefix_enqueue (some n) q bs, ?_⟩⟩
  · rw [enqueue, List.take_of_length_le (by omega)]
  · rw [enqueue, Nat.sub_eq_zero_of_le h, List.take_zero, List.append_nil]
  · rw [enqueue, List.length_append, List.length_take]; omega
  · exact (List.prefix_append_right_inj q).2 (List.take_prefix _ _)

/-- Settles O11: the transport's actions, the idle step, and the queue's room. -/
theorem stepTransport : Obligations.StepTransport := by
  refine ⟨fun s => ⟨fun t rest hport hle => ?_, fun t rest hport hlt => ?_, fun bs rest => step_of_receive, step_of_stable⟩,
    fun q bs => ⟨rfl, fun n => enqueue_some n q bs⟩⟩
  · rw [step_of_clock hport, clockTo, if_neg (Nat.not_lt.2 hle)]
  · rw [step_of_clock hport, clockTo, if_pos hlt]

/-! ### Everything a step can do -/

/-- A step that answers a next state held the state, ran an instruction, or was an action of the transport (rules R7, R56, R98,
R110, R124). -/
theorem step_cases {s t : State} (h : step s = .next t) :
    t = s ∨ (∃ i port, exec i { s with port := port } = .next t) ∨
    (∃ n port, s.now ≤ n ∧ t = { s with port := port, now := n }) ∨
    ∃ bs port, t = { s with port := port, rxq := enqueue Config.rxqDepth s.rxq bs } := by
  have hencoded (e : Encoded) (rest : List Input) (h : runEncoded e { s with port := rest } = .next t) :
      ∃ i port, exec i { s with port := port } = .next t := by
    rw [runEncoded] at h
    split at h
    · exact ⟨_, rest, h⟩
    · cases h
  cases hport : s.port with
  | nil =>
    cases hdec : decodeFront s.window with
    | ok i => exact .inr (.inl ⟨i, s.port, (step_of_front hport hdec).symm.trans h⟩)
    | error r =>
      have hstable : stable s.window = true :=
        (stable_iff s.window).2 (by rcases decodeFront_error hdec with rfl | rfl <;> simp [hdec])
      rw [step_of_stable hport hstable] at h
      cases h
      exact .inl rfl
  | cons x rest =>
    cases x with
    | op w => simp only [step, runNext, hport, runInput] at h; exact .inr (.inl (hencoded _ _ h))
    | command bs => simp only [step, runNext, hport, runInput] at h; exact .inr (.inl (hencoded _ _ h))
    | candidate n => simp only [step, runNext, hport, runInput] at h; exact .inr (.inl (hencoded _ _ h))
    | clock n =>
      rw [step_of_clock hport, clockTo] at h
      split at h
      · cases h
      · next hle => cases h; exact .inr (.inr (.inl ⟨n, rest, Nat.le_of_not_lt hle, rfl⟩))
    | receive bs =>
      rw [step_of_receive hport] at h
      cases h
      exact .inr (.inr (.inr ⟨bs, rest, rfl⟩))

/-! ### The invariant -/

/-- What the environment received keeps the activity in the past (rule R98). -/
theorem Received.activityPast {s t : State} {evs : List Event} (h : Received s t evs) (hs : s.lastActivity ≤ s.now) :
    t.lastActivity ≤ t.now := by
  rw [h.activity, h.now]
  split
  · exact Nat.le_refl _
  · exact hs

/-- A window of at most 40 bytes is stored in canonical form (rules R17 and R79). -/
theorem wf_ofBytes_of_stable {buf : List Byte} (h : stable buf = true) : Memory.wf (Memory.ofBytes buf) = true :=
  (Memory.wf_ofBytes buf).2 (Nat.le_trans (length_of_stable h) (by decide))

/-- An operation of the block keeps the invariant (rules R79, R98 and R113). -/
theorem State.Inv.afterBlock {s : State} (h : s.Inv) {buf : List Byte} {evs : List Event} (hstable : stable buf = true)
    (hrange : ∀ e ∈ evs, distanceInRange e = true) : (s.afterBlock buf evs).Inv := by
  have hb := afterBlock_blockFrom s buf evs
  have hrecv := received_afterBlock (s := s) buf hrange
  exact {
    bufWf := by rw [hb.buf]; exact wf_ofBytes_of_stable hstable
    windowStable := by rwa [hb.window]
    activityPast := hrecv.activityPast h.activityPast
    allSent := hb.txq.trans h.allSent
    startedInSystem := fun hs => by
      rw [hb.mode]
      exact s.enterBlock_mode_eq_system.2 (h.startedInSystem (hb.started.symm.trans hs))
    rangeKept := hrecv.rangeKept h.rangeKept
    queueFits := by rw [hb.rxq]; exact h.queueFits }

/-- The byte drain keeps the invariant (rules R79, R98, R110 and R113). -/
theorem State.Inv.drained {readNone : Nat → Bool} {k j : Nat} {s t : State} {evs : List Event} (h : s.Inv)
    (hm : s.mode = .system) (hd : Drained readNone k s t j evs) : t.Inv := by
  have hstable : stable t.window = true := stable_of_feedBlock h.windowStable hd.fed
  exact {
    bufWf := by
      rcases hd.buf with hbuf | hbuf
      · rw [hbuf]; exact h.bufWf
      · rw [hbuf]; exact wf_ofBytes_of_stable hstable
    windowStable := hstable
    activityPast := hd.received.activityPast h.activityPast
    allSent := hd.untouched.txq.trans h.allSent
    startedInSystem := fun _ => hd.mode.trans hm
    rangeKept := hd.received.rangeKept h.rangeKept
    queueFits := fitsDepth_of_le (by rw [hd.rxq, List.length_drop]; exact Nat.sub_le _ _) h.queueFits }

/-- Sending the start command in a system run keeps the invariant (rules R26, R98 and R101). -/
theorem State.Inv.sendStart {s : State} (h : s.Inv) (hm : s.mode = .system) : s.sendStart.Inv :=
  ⟨h.bufWf, h.windowStable, Nat.le_refl _, rfl, fun _ => hm, h.rangeKept, h.queueFits⟩

/-- Every instruction that completes keeps the invariant. -/
theorem State.Inv.exec {i : Instr} {s t : State} (h : s.Inv) (ht : Machine.exec i s = .next t) : t.Inv := by
  cases completed_of_exec ht with
  | block hi hstable hrange => exact h.afterBlock hstable hrange
  | reset =>
    exact ⟨rfl, rfl, Nat.zero_le _, h.allSent, fun hs => absurd hs Bool.false_ne_true, rfl, h.queueFits⟩
  | init => exact ⟨rfl, rfl, Nat.le_refl _, rfl, fun _ => rfl, rfl, h.queueFits⟩
  | drain hm hd => exact h.drained hm hd
  | linkQuiet => exact h
  | linkStart hm | startCmd hm => exact h.sendStart hm
  | linkTimeout hm =>
    have htimeout : (s.emit [.linkTimeout]).Inv :=
      ⟨h.bufWf, h.windowStable, h.activityPast, h.allSent, h.startedInSystem, h.rangeKept, h.queueFits⟩
    exact htimeout.sendStart hm
  | diag => exact ⟨h.bufWf, h.windowStable, h.activityPast, h.allSent, h.startedInSystem, h.rangeKept, h.queueFits⟩

/-- Settles O54: each case of a step keeps the invariant. -/
theorem stepKeepsInv : Obligations.StepKeepsInv := by
  intro s t h hstep
  rcases step_cases hstep with rfl | ⟨i, port, ht⟩ | ⟨n, port, hn, rfl⟩ | ⟨bs, port, rfl⟩
  · exact h
  · have hport : ({ s with port := port } : State).Inv :=
      ⟨h.bufWf, h.windowStable, h.activityPast, h.allSent, h.startedInSystem, h.rangeKept, h.queueFits⟩
    exact hport.exec ht
  · exact ⟨h.bufWf, h.windowStable, Nat.le_trans h.activityPast hn, h.allSent, h.startedInSystem, h.rangeKept, h.queueFits⟩
  · exact ⟨h.bufWf, h.windowStable, h.activityPast, h.allSent, h.startedInSystem, h.rangeKept,
      fitsDepth_enqueue bs h.queueFits⟩

end Sys2Proof.Machine
end

section
/-! PROOFS. The checksum: its listed values, and that a change of one covered byte always changes it, because each step of the bit
loop can be undone (rules R58, R60, R61; log 16). -/

namespace Sys2Proof

/-- Settles O8: each list is evaluated. -/
theorem crcVectors : Obligations.CrcVectors := by
  unfold Obligations.CrcVectors
  decide +kernel

/-- The bit shifted out stands in bit 15 of the result, which the polynomial sets and the shift leaves clear (rule R58). -/
theorem getLsbD_crcShift_fifteen (c : Half) : (crcShift c).getLsbD 15 = c.getLsbD 0 := by
  have hpoly : CRC_POLY[15] = true := rfl
  unfold crcShift
  split
  · next h => simpa [hpoly] using h
  · next h => simpa using h

/-- The inner loop's pass loses nothing: bit 15 says whether the polynomial was added, and the shift keeps the other bits. -/
theorem crcShift_injective : Function.Injective crcShift := by
  intro c d h
  have hlow : c.getLsbD 0 = d.getLsbD 0 := by rw [← getLsbD_crcShift_fifteen, h, getLsbD_crcShift_fifteen]
  have hshift : c >>> 1 = d >>> 1 := by
    unfold crcShift at h
    rw [hlow] at h
    split at h
    · exact (BitVec.xor_left_inj _).1 h
    · exact h
  refine BitVec.eq_of_getLsbD_eq fun i hi => ?_
  cases i with
  | zero => exact hlow
  | succ i =>
    have hbit := congrArg (fun v : Half => v.getLsbD i) hshift
    simpa [Nat.add_comm] using hbit

theorem repeat_injective {α : Type} {f : α → α} (hf : Function.Injective f) (n : Nat) :
    Function.Injective (Nat.repeat f n) := by
  induction n with
  | zero => exact Function.injective_id
  | succ n ih => exact hf.comp ih

/-- Two checksums that differ before a byte differ after it. -/
theorem crcByte_left_injective (b : Byte) : Function.Injective fun c => crcByte c b := fun _ _ h =>
  (BitVec.xor_left_inj _).1 (repeat_injective crcShift_injective 8 h)

/-- Two bytes that differ make a checksum differ. -/
theorem crcByte_right_injective (c : Half) : Function.Injective (crcByte c) := by
  intro b b' h
  have hext : b.zeroExtend 16 = b'.zeroExtend 16 := (BitVec.xor_right_inj _).1 (repeat_injective crcShift_injective 8 h)
  have hnat := congrArg BitVec.toNat hext
  rw [BitVec.toNat_setWidth_of_le (by omega), BitVec.toNat_setWidth_of_le (by omega)] at hnat
  exact BitVec.eq_of_toNat_eq hnat

/-- Checksums that differ stay different over the same bytes. -/
theorem foldl_crcByte_injective (data : List Byte) : Function.Injective fun c => data.foldl crcByte c := by
  induction data with
  | nil => exact Function.injective_id
  | cons b data ih => exact ih.comp (crcByte_left_injective b)

/-- A change of one byte changes the checksum. -/
theorem crc16_ne_of_ne {front back : List Byte} {b b' : Byte} (h : b ≠ b') :
    crc16 (front ++ b :: back) ≠ crc16 (front ++ b' :: back) := by
  simp only [crc16, List.foldl_append, List.foldl_cons]
  exact fun heq => h (crcByte_right_injective _ (foldl_crcByte_injective back heq))

/-- Settles O33: the received value is the checksum of the frame as it was, so it is not that of the changed frame. -/
theorem oneByteErrorDetected : Obligations.OneByteErrorDetected := by
  intro front back b b' x hne hok
  rw [crcOk_append_be16] at hok
  rw [← Bool.not_eq_true, crcOk_append_be16, ← hok]
  exact (crc16_ne_of_ne hne).symm

end Sys2Proof
end

section
/-! PROOFS. The hysteresis test on floats (rule R107): rounding to 24 bits or more changes a value by at most one part in 2^23, so
the float difference stays within 0.1 mm of the difference in millimetres, and the constant within 0.1 mm of 10 mm (log 17). -/

namespace Sys2Proof.Machine

/-! ### Rounding -/

/-- The rational a float is. -/
def FloatVal.toRat (x : FloatVal) : ℚ := x.num / x.den

/-- Rounding to the nearest integer is off by at most a half. -/
theorem abs_roundDiv_sub_le (a : ℕ) {b : ℕ} (hb : 0 < b) : |(roundDiv a b : ℚ) - a / b| ≤ 1 / 2 := by
  have hdiv : b * (a / b) + a % b = a := Nat.div_add_mod a b
  have hmod : a % b < b := Nat.mod_lt a hb
  have hround : 2 * (b * roundDiv a b) ≤ 2 * a + b ∧ 2 * a ≤ 2 * (b * roundDiv a b) + b := by
    unfold roundDiv
    split
    · omega
    · split
      · rw [Nat.mul_add]; omega
      · rcases Nat.mod_two_eq_zero_or_one (a / b) with h | h <;> rw [h, Nat.mul_add] <;> omega
  have hb' : (0 : ℚ) < b := by exact_mod_cast hb
  have hupper : 2 * ((b : ℚ) * roundDiv a b) ≤ 2 * a + b := by exact_mod_cast hround.1
  have hlower : 2 * (a : ℚ) ≤ 2 * (b * roundDiv a b) + b := by exact_mod_cast hround.2
  rw [abs_le, neg_le_sub_iff_le_add, sub_le_iff_le_add, div_le_iff₀ hb', ← sub_le_iff_le_add', le_div_iff₀ hb']
  constructor <;> linarith

/-- `roundTo` rounds `a * 2 ^ k / b` for a `k` that leaves `prec - 2` bits or more. -/
theorem roundTo_eq (prec : ℕ) {a : ℕ} (ha : a ≠ 0) (b : ℕ) :
    ∃ k, roundTo prec a b = ⟨roundDiv (a * 2 ^ k) b, 2 ^ k⟩ ∧ 2 ^ prec * b ≤ 4 * a * 2 ^ k := by
  have hbits (k : ℕ) (hk : prec + Nat.log2 b ≤ k + Nat.log2 a + 1) : 2 ^ prec * b ≤ 4 * a * 2 ^ k := by
    have ha' : 2 ^ Nat.log2 a ≤ a := Nat.log2_self_le ha
    have hb' : b ≤ 2 ^ (Nat.log2 b + 1) := Nat.lt_log2_self.le
    calc 2 ^ prec * b ≤ 2 ^ prec * 2 ^ (Nat.log2 b + 1) := Nat.mul_le_mul_left _ hb'
      _ = 2 * 2 ^ (prec + Nat.log2 b) := by ring
      _ ≤ 2 * 2 ^ (k + Nat.log2 a + 1) := Nat.mul_le_mul_left 2 (Nat.pow_le_pow_right (by omega) hk)
      _ = 4 * 2 ^ Nat.log2 a * 2 ^ k := by ring
      _ ≤ 4 * a * 2 ^ k := by gcongr
  rw [roundTo, if_neg ha]
  dsimp only
  split
  · exact ⟨_, rfl, hbits _ (by omega)⟩
  · exact ⟨_, rfl, hbits _ (by omega)⟩

/-- Rounding to 24 bits or more changes a value by at most one part in 2^23. -/
theorem abs_toRat_roundTo_sub_le {prec a b : ℕ} (hprec : 24 ≤ prec) (hb : 0 < b) :
    |FloatVal.toRat (roundTo prec a b) - a / b| ≤ a / b / 2 ^ 23 := by
  by_cases ha : a = 0
  · simp [ha, roundTo, floatZero, FloatVal.toRat]
  obtain ⟨k, hround, hbits⟩ := roundTo_eq prec ha b
  have hb' : (0 : ℚ) < b := by exact_mod_cast hb
  have hk : (0 : ℚ) < 2 ^ k := by positivity
  have hscaled := abs_roundDiv_sub_le (a * 2 ^ k) hb
  have hbits24 : (2 : ℚ) ^ 24 * b ≤ 4 * a * 2 ^ k := by
    exact_mod_cast (Nat.mul_le_mul_right b (Nat.pow_le_pow_right (by omega) hprec)).trans hbits
  have hsplit : FloatVal.toRat (roundTo prec a b) - a / b =
      ((roundDiv (a * 2 ^ k) b : ℚ) - (a * 2 ^ k : ℕ) / b) / 2 ^ k := by
    rw [hround, FloatVal.toRat]
    push_cast
    field_simp
  rw [hsplit, abs_div, abs_of_pos hk, div_le_iff₀ hk]
  refine hscaled.trans ?_
  rw [div_div, div_mul_eq_mul_div, le_div_iff₀ (by positivity)]
  linarith

theorem roundTo_den_pos (prec a b : ℕ) : 0 < (roundTo prec a b).den := by
  unfold roundTo
  split
  · exact Nat.one_pos
  · exact Nat.two_pow_pos _

/-! ### Comparing and subtracting floats -/

/-- The comparison of floats is the comparison of their values. -/
theorem floatGe_eq_true_iff {x y : FloatVal} (hx : 0 < x.den) (hy : 0 < y.den) :
    floatGe x y = true ↔ FloatVal.toRat y ≤ FloatVal.toRat x := by
  have hx' : (0 : ℚ) < x.den := by exact_mod_cast hx
  have hy' : (0 : ℚ) < y.den := by exact_mod_cast hy
  rw [floatGe, decide_eq_true_eq, FloatVal.toRat, FloatVal.toRat, div_le_div_iff₀ hy' hx']
  exact_mod_cast Iff.rfl

/-- The two truncated differences of natural numbers add up to their distance. -/
theorem cast_sub_add_sub (m n : ℕ) : ((m - n + (n - m) : ℕ) : ℚ) = |(m : ℚ) - n| := by
  rcases Nat.le_total m n with h | h
  · rw [Nat.sub_eq_zero_of_le h, Nat.zero_add, Nat.cast_sub h, abs_sub_comm, abs_of_nonneg]
    exact sub_nonneg.2 (by exact_mod_cast h)
  · rw [Nat.sub_eq_zero_of_le h, Nat.add_zero, Nat.cast_sub h, abs_of_nonneg]
    exact sub_nonneg.2 (by exact_mod_cast h)

/-- The float difference is the distance of the values, rounded once (rule R107). -/
theorem abs_toRat_floatAbsDiff_sub_le {prec : ℕ} (hprec : 24 ≤ prec) {x y : FloatVal} (hx : 0 < x.den) (hy : 0 < y.den) :
    |FloatVal.toRat (floatAbsDiff prec x y) - (|FloatVal.toRat x - FloatVal.toRat y|)| ≤
      |FloatVal.toRat x - FloatVal.toRat y| / 2 ^ 23 := by
  have hx' : (0 : ℚ) < x.den := by exact_mod_cast hx
  have hy' : (0 : ℚ) < y.den := by exact_mod_cast hy
  have hquot : (((x.num * y.den - y.num * x.den) + (y.num * x.den - x.num * y.den) : ℕ) : ℚ) / (x.den * y.den : ℕ) =
      |FloatVal.toRat x - FloatVal.toRat y| := by
    rw [cast_sub_add_sub, FloatVal.toRat, FloatVal.toRat, div_sub_div _ _ hx'.ne' hy'.ne', abs_div,
      abs_of_pos (mul_pos hx' hy')]
    push_cast
    ring_nf
  rw [← hquot]
  exact abs_toRat_roundTo_sub_le hprec (Nat.mul_pos hx hy)

/-! ### The test in metres -/

section
variable {prec : ℕ} (hprec : 24 ≤ prec)
include hprec

/-- A distance in metres is its millimetres to within 0.01 mm. -/
theorem abs_toRat_metres_sub_le {d : ℕ} (hd : d ≤ 65534) : |FloatVal.toRat (roundTo prec d 1000) - d / 1000| ≤ 1 / 100000 := by
  have hround := abs_toRat_roundTo_sub_le (a := d) (b := 1000) hprec (by omega)
  have hd' : (d : ℚ) ≤ 65534 := by exact_mod_cast hd
  push_cast at hround
  linarith

/-- The float difference of two distances is their change in millimetres to within 0.1 mm. -/
theorem abs_toRat_change_sub_le {d0 d1 : ℕ} (h0 : d0 ≤ 65534) (h1 : d1 ≤ 65534) :
    |FloatVal.toRat (floatAbsDiff prec (roundTo prec d1 1000) (roundTo prec d0 1000)) - changeMm d0 d1 / 1000| ≤ 1 / 10000 := by
  have hdiff := abs_toRat_floatAbsDiff_sub_le hprec (roundTo_den_pos prec d1 1000) (roundTo_den_pos prec d0 1000)
  have hround1 := abs_toRat_metres_sub_le hprec h1
  have hround0 := abs_toRat_metres_sub_le hprec h0
  have hchange : (changeMm d0 d1 : ℚ) / 1000 = |(d1 : ℚ) / 1000 - d0 / 1000| := by
    rw [changeMm, cast_sub_add_sub, ← sub_div, abs_div, abs_of_pos (show (0 : ℚ) < 1000 by norm_num)]
  have hbound : (changeMm d0 d1 : ℚ) ≤ 65534 := by
    have : changeMm d0 d1 ≤ 65534 := by rw [changeMm]; omega
    exact_mod_cast this
  generalize FloatVal.toRat (floatAbsDiff prec _ _) = z at *
  generalize FloatVal.toRat (roundTo prec d1 1000) = x at *
  generalize FloatVal.toRat (roundTo prec d0 1000) = y at *
  have hxy : |(|x - y|) - changeMm d0 d1 / 1000| ≤ 2 / 100000 := by
    rw [hchange]
    calc |(|x - y|) - (|(d1 : ℚ) / 1000 - d0 / 1000|)|
      _ ≤ |(x - y) - (d1 / 1000 - d0 / 1000)| := abs_abs_sub_abs_le _ _
      _ = |(x - d1 / 1000) - (y - d0 / 1000)| := by ring_nf
      _ ≤ |x - d1 / 1000| + |y - d0 / 1000| := abs_sub _ _
      _ ≤ 2 / 100000 := by linarith
  rw [abs_le] at hxy hdiff ⊢
  constructor <;> linarith

/-- A change of at most 9 mm fails the test and one of at least 11 mm passes it, in every format of 24 bits or more. -/
theorem floatGe_change {d0 d1 : ℕ} (h0 : d0 ≤ 65534) (h1 : d1 ≤ 65534) :
    (changeMm d0 d1 ≤ 9 →
      floatGe (floatAbsDiff prec (roundTo prec d1 1000) (roundTo prec d0 1000)) (roundTo prec 1 100) = false) ∧
    (11 ≤ changeMm d0 d1 →
      floatGe (floatAbsDiff prec (roundTo prec d1 1000) (roundTo prec d0 1000)) (roundTo prec 1 100) = true) := by
  have hchange := abs_toRat_change_sub_le hprec h0 h1
  have hconst := abs_toRat_roundTo_sub_le (a := 1) (b := 100) hprec (by omega)
  have hge := floatGe_eq_true_iff (x := floatAbsDiff prec (roundTo prec d1 1000) (roundTo prec d0 1000))
    (y := roundTo prec 1 100) (roundTo_den_pos _ _ _) (roundTo_den_pos _ _ _)
  push_cast at hconst
  rw [abs_le] at hchange hconst
  refine ⟨fun hle => ?_, fun hge' => ?_⟩
  · have hle' : (changeMm d0 d1 : ℚ) ≤ 9 := by exact_mod_cast hle
    rw [← Bool.not_eq_true, hge, not_le]
    linarith
  · have hge'' : (11 : ℚ) ≤ changeMm d0 d1 := by exact_mod_cast hge'
    rw [hge]
    linarith

end

/-- The metre value in a format of `prec` bits is the millimetres over 1000, rounded once (rule R94). -/
theorem metreFloat_of_precision {fmt : FloatFmt} {prec : ℕ} (h : precisionOf fmt = some prec) (d : ℕ) :
    metreFloat fmt ⟨d⟩ = roundTo prec d 1000 := by
  by_cases hd : d = 0
  · subst hd
    rfl
  · cases fmt with
    | binary32 | binary64 => cases h; exact if_neg hd
    | other k => cases h

/-- Settles O52: both formats have 24 bits or more. -/
theorem floatHysteresisAgrees : Obligations.FloatHysteresisAgrees := by
  intro fmt d0 d1 hfmt h0 h1
  obtain ⟨prec, hp, hprec⟩ : ∃ prec, precisionOf fmt = some prec ∧ 24 ≤ prec := by
    rcases hfmt with rfl | rfl
    · exact ⟨24, rfl, Nat.le_refl _⟩
    · exact ⟨53, rfl, by omega⟩
  simp only [hysteresisOnFloats, hp, Option.map_some, metreFloat_of_precision hp, Option.some_inj]
  exact floatGe_change hprec h0 h1

end Sys2Proof.Machine
end
